-- ==== Sys2Proof/Word.lean ====
section
/-! DEFINITION. Word.lean: the bit-vector types of PXC's ports and buffer. The widths are those of the parameter
table of 00_scope.md rule R7 (CHANNEL_W = 8, COLOR_W = 24, OPERAND_W = PIN_W = 32) and of 30_encoding.md rule R80. -/

namespace Sys2Proof

/-- One colour channel, one brightness level, one buffer byte (R7: `CHANNEL_W = 8`). -/
abbrev Byte := BitVec 8

/-- One command operand, one result value, one pin handle (R7: `OPERAND_W = 32`, `PIN_W = 32`). -/
abbrev Word := BitVec 32

/-- A colour word: red 23:16, green 15:8, blue 7:0 (R7: `COLOR_W = 24`; R110). -/
abbrev ColorWord := BitVec 24

/-- A command word of the one format `CMD104` (R80). -/
abbrev CmdWord := BitVec 104

end Sys2Proof
end

