-- ==== Sys2Proof/Syntax.lean ====
section
/-! DEFINITION. Syntax.lean: the nine commands of 30_encoding.md rule R81, one constructor per row of
spec/opcode_table.json, with the operand fields the row uses (an ignored field has no effect, R82, and is not kept:
assumption log 9); and the abstract syntax of the assembler of rules R93 to R95. -/

namespace Sys2Proof

/-- A command with the operands it uses, each a whole 32-bit operand field (R80, R81). -/
inductive Instr where
  /-- `PACK r, g, b`: opcode 0x01, R111. -/
  | pack (r g b : Word)
  /-- `UNPACK_R color`: opcode 0x02, R112. -/
  | unpackR (color : Word)
  /-- `UNPACK_G color`: opcode 0x03, R113. -/
  | unpackG (color : Word)
  /-- `UNPACK_B color`: opcode 0x04, R114. -/
  | unpackB (color : Word)
  /-- `INIT pin, length`: opcode 0x10, R150. -/
  | init (pin length : Word)
  /-- `SET_BRIGHTNESS level`: opcode 0x11, R153. -/
  | setBrightness (level : Word)
  /-- `SET_PIXEL index, color`: opcode 0x12, R154. -/
  | setPixel (index color : Word)
  /-- `SHOW_COLOR color`: opcode 0x13, R157. -/
  | showColor (color : Word)
  /-- `SHOW`: opcode 0x14, R159. -/
  | showStrip
  deriving DecidableEq, Repr

/-- The nine mnemonics of R81. -/
inductive Mnemonic where
  | PACK | UNPACK_R | UNPACK_G | UNPACK_B | INIT | SET_BRIGHTNESS | SET_PIXEL | SHOW_COLOR | SHOW
  deriving DecidableEq, Repr

/-- The command's mnemonic (R13, R81). -/
def Instr.mnemonic : Instr → Mnemonic
  | .pack _ _ _ => .PACK
  | .unpackR _ => .UNPACK_R
  | .unpackG _ => .UNPACK_G
  | .unpackB _ => .UNPACK_B
  | .init _ _ => .INIT
  | .setBrightness _ => .SET_BRIGHTNESS
  | .setPixel _ _ => .SET_PIXEL
  | .showColor _ => .SHOW_COLOR
  | .showStrip => .SHOW

/-- How many operands the mnemonic takes in the assembler (the first column of R93's table). -/
def Mnemonic.arity : Mnemonic → Nat
  | .PACK => 3
  | .INIT | .SET_PIXEL => 2
  | .UNPACK_R | .UNPACK_G | .UNPACK_B | .SET_BRIGHTNESS | .SHOW_COLOR => 1
  | .SHOW => 0

/-- The ten named colour constants of the assembler (R95, R117). -/
inductive NamedColor where
  | RED | ORANGE | YELLOW | GREEN | BLUE | INDIGO | VIOLET | PURPLE | WHITE | BLACK
  deriving DecidableEq, Repr

/-- An assembler operand: an integer literal or a named colour (R94). -/
inductive AsmOperand where
  | number (v : Int)
  | color (c : NamedColor)
  deriving DecidableEq, Repr

/-- One assembler line that holds a command: a mnemonic and its operands in order (R93). -/
structure AsmCommand where
  mnemonic : Mnemonic
  operands : List AsmOperand
  deriving DecidableEq, Repr

end Sys2Proof
end

