-- ==== Sys2Proof/WellFormed.lean ====
section
/-! DEFINITION. WellFormed.lean: which commands are well formed. A decoded command always is: "every value of `A`,
`B`, `C` is accepted by decoding" (30_encoding.md rule R84), and the operand widths are in the types. What can be ill
formed is an assembler command: an integer outside the range of R94, or the wrong number of operands for R93. -/

namespace Sys2Proof

/-- R84: no operand value makes an assigned opcode illegal, so every command is well formed. -/
def Instr.wf : Instr → Bool
  | .pack _ _ _ | .unpackR _ | .unpackG _ | .unpackB _ | .init _ _ | .setBrightness _ | .setPixel _ _
  | .showColor _ | .showStrip => true

/-- R94: an integer operand lies in `[-2^31, 2^32 - 1]`; a named colour is always accepted (R95). -/
def AsmOperand.wf : AsmOperand → Bool
  | .number v => decide (-(2 ^ 31 : Int) ≤ v) && decide (v ≤ (2 ^ 32 : Int) - 1)
  | .color _ => true

/-- R93, R94: as many operands as the mnemonic takes, each acceptable. -/
def AsmCommand.wf (c : AsmCommand) : Bool :=
  decide (c.operands.length = c.mnemonic.arity) && c.operands.all AsmOperand.wf

end Sys2Proof
end

