-- ==== Sys2Proof/Decode.lean ====
section
/-! DEFINITION. Decode.lean: the command word of 30_encoding.md rules R80 to R85, its decoder (total on all `2^104`
words, R83), the encoder written from the same table, and the assembler of rules R93 to R96. -/

namespace Sys2Proof

/-! ### Fields of the command word (R80) -/

/-- `OP = cmd[103:96]` (R80). -/
def opField (w : CmdWord) : Byte := w.extractLsb' 96 8

/-- `A = cmd[95:64]` (R80). -/
def fieldA (w : CmdWord) : Word := w.extractLsb' 64 32

/-- `B = cmd[63:32]` (R80). -/
def fieldB (w : CmdWord) : Word := w.extractLsb' 32 32

/-- `C = cmd[31:0]` (R80). -/
def fieldC (w : CmdWord) : Word := w.extractLsb' 0 32

/-- The command word `{OP, A, B, C}`, `OP` most significant (R8, R80). -/
def cmdWord (op : Byte) (a b c : Word) : CmdWord := op ++ a ++ b ++ c

/-! ### The opcode table (R81) -/

/-- The opcode of each mnemonic (R81). -/
def Mnemonic.code : Mnemonic → Byte
  | .PACK => 0x01
  | .UNPACK_R => 0x02
  | .UNPACK_G => 0x03
  | .UNPACK_B => 0x04
  | .INIT => 0x10
  | .SET_BRIGHTNESS => 0x11
  | .SET_PIXEL => 0x12
  | .SHOW_COLOR => 0x13
  | .SHOW => 0x14

/-- The assigned opcodes in the order of R81's table. -/
def assignedMnemonics : List Mnemonic :=
  [.PACK, .UNPACK_R, .UNPACK_G, .UNPACK_B, .INIT, .SET_BRIGHTNESS, .SET_PIXEL, .SHOW_COLOR, .SHOW]

/-- The mnemonic an opcode is assigned to, if any; the other 247 values are reserved (R84). -/
def mnemonicOfCode (op : Byte) : Option Mnemonic := assignedMnemonics.find? fun m => m.code == op

/-- The command of a mnemonic and the three operand fields: R81's columns "uses `A` / `B` / `C` as". -/
def Instr.ofFields (m : Mnemonic) (a b c : Word) : Instr :=
  match m with
  | .PACK => .pack a b c
  | .UNPACK_R => .unpackR a
  | .UNPACK_G => .unpackG a
  | .UNPACK_B => .unpackB a
  | .INIT => .init a b
  | .SET_BRIGHTNESS => .setBrightness a
  | .SET_PIXEL => .setPixel a b
  | .SHOW_COLOR => .showColor a
  | .SHOW => .showStrip

/-! ### Decoder (R83, R84) -/

/-- What a command word is: one of the nine commands, or a word with a reserved opcode. -/
inductive Decoded where
  /-- A word with an assigned opcode (R83). -/
  | command (i : Instr)
  /-- A word whose `OP` is one of the 247 reserved values: an illegal command (R84). -/
  | reservedOpcode (op : Byte)
  deriving DecidableEq, Repr

/-- R83: total on all `2^104` words, and reads no state. -/
def decode (w : CmdWord) : Decoded :=
  match mnemonicOfCode (opField w) with
  | some m => .command (Instr.ofFields m (fieldA w) (fieldB w) (fieldC w))
  | none => .reservedOpcode (opField w)

/-! ### Encoder -/

/-- The field `A` of a command's word; zero where R81 says "ignored" (R82, R94). -/
def Instr.operandA : Instr → Word
  | .pack r _ _ => r
  | .unpackR color | .unpackG color | .unpackB color | .showColor color => color
  | .init pin _ => pin
  | .setBrightness level => level
  | .setPixel index _ => index
  | .showStrip => 0

/-- The field `B` of a command's word; zero where R81 says "ignored" (R82, R94). -/
def Instr.operandB : Instr → Word
  | .pack _ g _ => g
  | .init _ length => length
  | .setPixel _ color => color
  | .unpackR _ | .unpackG _ | .unpackB _ | .setBrightness _ | .showColor _ | .showStrip => 0

/-- The field `C` of a command's word; zero where R81 says "ignored" (R82, R94). -/
def Instr.operandC : Instr → Word
  | .pack _ _ b => b
  | .unpackR _ | .unpackG _ | .unpackB _ | .init _ _ | .setBrightness _ | .setPixel _ _ | .showColor _
  | .showStrip => 0

/-- The word of a command, ignored fields zero (R80, R81, R82). -/
def encode (i : Instr) : CmdWord := cmdWord i.mnemonic.code i.operandA i.operandB i.operandC

/-! ### The opcode table's numbering of a word -/

/-- The command word whose low `nbits` bits are those of `w` and whose bits above are 0. The table numbers the one
104-bit word as R80 does (bit 0 the least significant, `OP` at the top). -/
def tableWord (nbits w : Nat) : CmdWord := BitVec.ofNat 104 (w % 2 ^ nbits)

/-- The command the decoder reads from a word of the opcode table; none for a reserved opcode and for a length no
command has (R85: a command is always 104 bits). -/
def decodeTableWord (nbits w : Nat) : Option Instr :=
  if nbits ≤ 104 then
    match decode (tableWord nbits w) with
    | .command i => some i
    | .reservedOpcode _ => none
  else none

/-! ### Assembler: abstract syntax to words (R93 to R96) -/

/-- The value of a named colour constant (R95, R117). -/
def NamedColor.value : NamedColor → ColorWord
  | .RED => 0xFF0000
  | .ORANGE => 0xFFA500
  | .YELLOW => 0xFFFF00
  | .GREEN => 0x00FF00
  | .BLUE => 0x0000FF
  | .INDIGO => 0x4B0082
  | .VIOLET => 0x8A2BE2
  | .PURPLE => 0xFF00FF
  | .WHITE => 0xFFFFFF
  | .BLACK => 0x000000

/-- The 32-bit field of an operand: the value itself, a negative integer as its two's-complement pattern, a named
colour by its value (R94, R95). Used on operands that R94 accepts. -/
def AsmOperand.field : AsmOperand → Word
  | .number v => BitVec.ofInt 32 v
  | .color c => c.value.setWidth 32

/-- The word of an assembler command, or none where R94 rejects an operand or R93 has no such form. Operands go to
`A`, `B`, `C` in the order they are written and the fields left over are zero (R93). -/
def assemble (c : AsmCommand) : Option CmdWord :=
  if c.wf then
    let f := c.operands.map AsmOperand.field
    some (cmdWord c.mnemonic.code (f.getD 0 0) (f.getD 1 0) (f.getD 2 0))
  else none

/-! ### Assembler: text (R93, R94). Layout the rules do not fix is assumption log 12. -/

/-- The spelling of a mnemonic: capitals, as in R81. -/
def Mnemonic.spelling : Mnemonic → List Char
  | .PACK => ['P', 'A', 'C', 'K']
  | .UNPACK_R => ['U', 'N', 'P', 'A', 'C', 'K', '_', 'R']
  | .UNPACK_G => ['U', 'N', 'P', 'A', 'C', 'K', '_', 'G']
  | .UNPACK_B => ['U', 'N', 'P', 'A', 'C', 'K', '_', 'B']
  | .INIT => ['I', 'N', 'I', 'T']
  | .SET_BRIGHTNESS => ['S', 'E', 'T', '_', 'B', 'R', 'I', 'G', 'H', 'T', 'N', 'E', 'S', 'S']
  | .SET_PIXEL => ['S', 'E', 'T', '_', 'P', 'I', 'X', 'E', 'L']
  | .SHOW_COLOR => ['S', 'H', 'O', 'W', '_', 'C', 'O', 'L', 'O', 'R']
  | .SHOW => ['S', 'H', 'O', 'W']

/-- The spelling of a named colour (R95). -/
def NamedColor.spelling : NamedColor → List Char
  | .RED => ['R', 'E', 'D']
  | .ORANGE => ['O', 'R', 'A', 'N', 'G', 'E']
  | .YELLOW => ['Y', 'E', 'L', 'L', 'O', 'W']
  | .GREEN => ['G', 'R', 'E', 'E', 'N']
  | .BLUE => ['B', 'L', 'U', 'E']
  | .INDIGO => ['I', 'N', 'D', 'I', 'G', 'O']
  | .VIOLET => ['V', 'I', 'O', 'L', 'E', 'T']
  | .PURPLE => ['P', 'U', 'R', 'P', 'L', 'E']
  | .WHITE => ['W', 'H', 'I', 'T', 'E']
  | .BLACK => ['B', 'L', 'A', 'C', 'K']

/-- The ten named colours in the order of R95. -/
def namedColors : List NamedColor :=
  [.RED, .ORANGE, .YELLOW, .GREEN, .BLUE, .INDIGO, .VIOLET, .PURPLE, .WHITE, .BLACK]

/-- The value of a digit in a base of at most 16; hexadecimal letters of either case. -/
def digitValue (base : Nat) (ch : Char) : Option Nat :=
  let n := ch.toNat
  let d :=
    if 48 ≤ n ∧ n ≤ 57 then n - 48
    else if 65 ≤ n ∧ n ≤ 70 then n - 55
    else if 97 ≤ n ∧ n ≤ 102 then n - 87
    else base
  if d < base then some d else none

/-- The digits of a numeral after the value `acc` read so far. -/
def digitsFrom (base acc : Nat) : List Char → Option Nat
  | [] => some acc
  | ch :: rest =>
    match digitValue base ch with
    | some d => digitsFrom base (acc * base + d) rest
    | none => none

/-- A numeral of at least one digit. -/
def numeral (base : Nat) : List Char → Option Nat
  | [] => none
  | ch :: rest => digitsFrom base 0 (ch :: rest)

/-- R94: a decimal integer with an optional leading `-`, a hexadecimal integer `0x...`, or a named colour. -/
def parseOperand (text : List Char) : Option AsmOperand :=
  match namedColors.find? fun c => c.spelling == text with
  | some c => some (.color c)
  | none =>
    match text with
    | '0' :: 'x' :: digits => (numeral 16 digits).map fun n => .number (Int.ofNat n)
    | '-' :: digits => (numeral 10 digits).map fun n => .number (-(Int.ofNat n))
    | digits => (numeral 10 digits).map fun n => .number (Int.ofNat n)

/-- A space or a tab. -/
def isBlank (ch : Char) : Bool := ch == ' ' || ch == '\t'

/-- Text without the blanks at its two ends. -/
def trimBlanks (text : List Char) : List Char :=
  ((text.dropWhile isBlank).reverse.dropWhile isBlank).reverse

/-- Text split at its commas (R93: "operands separated by commas"). -/
def splitCommas : List Char → List (List Char)
  | [] => [[]]
  | ch :: rest =>
    if ch = ',' then [] :: splitCommas rest
    else
      match splitCommas rest with
      | [] => [[ch]]
      | piece :: pieces => (ch :: piece) :: pieces

/-- Every operand text read, or none where one cannot be. -/
def parseOperands : List (List Char) → Option (List AsmOperand)
  | [] => some []
  | t :: rest =>
    match parseOperand (trimBlanks t), parseOperands rest with
    | some o, some os => some (o :: os)
    | _, _ => none

/-- What one line of assembler text is. -/
inductive AsmLine where
  /-- Nothing but blanks and a comment. -/
  | noCommand
  /-- A command's word. -/
  | word (w : CmdWord)
  /-- Text that R93 or R94 rejects. -/
  | rejected
  deriving DecidableEq, Repr

/-- R93: one command per line, `;` starts a comment that runs to the end of the line, mnemonic in capitals, operands
separated by commas. -/
def assembleLine (line : List Char) : AsmLine :=
  let body := trimBlanks (line.takeWhile fun ch => ch != ';')
  let name := body.takeWhile fun ch => !isBlank ch
  let rest := trimBlanks (body.dropWhile fun ch => !isBlank ch)
  if body.isEmpty then .noCommand
  else
    match assignedMnemonics.find? fun m => m.spelling == name with
    | none => .rejected
    | some m =>
      match if rest.isEmpty then some [] else parseOperands (splitCommas rest) with
      | none => .rejected
      | some ops =>
        match assemble { mnemonic := m, operands := ops } with
        | some w => .word w
        | none => .rejected

end Sys2Proof
end

