-- ==== Sys2Proof/Config.lean ====
section
/-! DEFINITION. Config.lean: the implementation parameters of 00_scope.md rule R7. The fixed ones are constants;
the two OPEN ones (`MAX_PIXELS`, `INIT_RESETS_BRIGHTNESS`) are the fields of `Params`, an argument of the machine: a
state carries them, no step changes them, and a statement about every state therefore holds for every choice of them
(assumption log 1). PXC leaves no value of a result free, so there is no opaque constant here. -/

namespace Sys2Proof

/-- The two OPEN parameters of R7. -/
structure Params where
  /-- `MAX_PIXELS`: the largest pixel count `INIT` accepts (R7, R183). -/
  maxPixels : Nat
  /-- `INIT_RESETS_BRIGHTNESS`: whether a successful `INIT` also writes `BRIGHTNESS <- 255` (R7, R151). -/
  initResetsBrightness : Bool
  deriving DecidableEq, Repr

/-- The largest pixel count that a signed 32-bit length can name; `MAX_PIXELS` is at most this (R51). -/
def Config.maxPixelsLimit : Nat := 2 ^ 31 - 1

/-- The defaults of the table of R7: `MAX_PIXELS = 2^31 - 1`, `INIT_RESETS_BRIGHTNESS = false`. -/
def Config.defaultParams : Params := { maxPixels := 2 ^ 31 - 1, initResetsBrightness := false }

/-- `BYTES_PER_PIXEL` (R7). -/
def Config.bytesPerPixel : Nat := 3

/-- `DIVISOR` of the scaler (R7). -/
def Config.divisor : Nat := 255

/-- `BRIGHTNESS_DEFAULT`, the value of `BRIGHTNESS` after reset (R7). -/
def Config.brightnessDefault : Byte := 255

/-- R51: a legal `MAX_PIXELS` is at most `2^31 - 1`. -/
def Params.wf (p : Params) : Bool := decide (p.maxPixels ≤ Config.maxPixelsLimit)

end Sys2Proof
end

