-- ==== Sys2Proof/Machine/State.lean ====
section
/-! DEFINITION. Machine/State.lean: everything PXC holds (10_state.md rule R23), what it exchanges with the host and
the two external devices (rules R30 to R35), the reasons a step can stop, and the state after reset (rule R37). -/

namespace Sys2Proof.Machine

/-- Offset and byte pairs, offsets strictly rising, none holding the byte an unlisted offset reads as. -/
abbrev Memory := List Host.Cell

/-! ### The host's side (R30, R35) -/

/-- The status codes of a response (R180). -/
inductive Status where
  /-- Code 0: the command completed. -/
  | ok
  /-- Code 1: a strip command other than `INIT` in `Uninitialized` (R181). -/
  | uninitializedUse
  /-- Code 2: `SET_PIXEL` with an index outside `[0, PIXEL_COUNT)` (R182). -/
  | outOfRange
  /-- Code 3: a word with a reserved opcode (R184). -/
  | illegalCommand
  /-- Code 4: `INIT` with `max(length, 0) > MAX_PIXELS` (R183). -/
  | capacity
  /-- Code 5: the document's ConfigurationError, reserved and never produced (R185). -/
  | configuration
  deriving DecidableEq, Repr

/-- The one response of a command: a status, and a value where `has_val = 1`. Where `has_val = 0` the response carries
no value (R30, 93_implementation_defined.md U7). -/
structure Response where
  status : Status
  val : Option Word
  deriving DecidableEq, Repr

/-- What the host does to PXC between commands: present a command word (R30), or assert the reset input (R35). -/
inductive HostInput where
  | command (w : CmdWord)
  | reset
  deriving DecidableEq, Repr

/-! ### The devices' side (R31 to R33) -/

/-- The level of a pin-write transaction, one bit: 0 = low, 1 = high (R33). -/
inductive Level where
  | low
  | high
  deriving DecidableEq, Repr

/-- An event of the trace (R32). -/
inductive Event where
  /-- One pin-write transaction. -/
  | pinWrite (pin : Word) (level : Level)
  /-- One transmit transaction: a copy of the whole buffer in ascending offset order, and the pin. -/
  | transmit (bytes : List Byte) (pin : Word)
  deriving DecidableEq, Repr

/-- The external transmitter's one freedom that PXC can notice: whether its transactions complete
(60_exceptions.md R194 requires that they do; 93_implementation_defined.md U8 is the other case). -/
inductive Transmitter where
  | completes
  | neverCompletes
  deriving DecidableEq, Repr

/-! ### PXC's own state (R23) -/

/-- What the strip holds once it is `Ready` (R23, R28): `PIXEL_COUNT`, `PIN` and the bytes of `BUF`, which has exactly
`3 * PIXEL_COUNT` bytes at offsets `0 .. 3 * PIXEL_COUNT - 1`. -/
structure ReadyStrip where
  pixelCount : BitVec 32
  pin : Word
  buf : Memory
  deriving DecidableEq, Repr

/-- `STATE`, with the three items that hold no value in `Uninitialized` inside the constructor for `Ready` (R24, R37:
"a field that exists only in the `Ready` constructor"). -/
inductive Strip where
  | uninitialized
  | ready (r : ReadyStrip)
  deriving DecidableEq, Repr

/-- The machine. `brightness` and `strip` are the five items of R23; `params` are the OPEN parameters of R7, written by
no step; `responses` and `trace` are the observation of R32, read by no command; `inputs` is what the host has still to
present and `transmitter` the external device, both outside PXC (assumption log 1 to 3 and 6). -/
structure State where
  params : Params
  brightness : Byte
  strip : Strip
  inputs : List HostInput
  responses : List Response
  trace : List Event
  transmitter : Transmitter
  deriving DecidableEq, Repr

/-- Why a step can stop. PXC's own faults are no stops: they are responses, and the machine goes on (R186, R188). -/
inductive Fault where
  /-- Raised by `SET_PIXEL`, `SHOW_COLOR` and `SHOW` where the transmitter never completes a transmit transaction:
  the command never responds and PXC accepts nothing further (R194; U8, treatment `stuck`). Safe: the machine stops. -/
  | transmitterNeverCompletes
  deriving DecidableEq, Repr

/-- Why a step can be refused. -/
inductive Refusal where
  /-- Raised by an arm of `exec` for a command that has no meaning yet. No arm does. Safe: the machine stops. -/
  | notModelled (mnemonic : String)
  deriving DecidableEq, Repr

/-- What a meaning answers. -/
abbrev Result := Host.Outcome State Fault Refusal

/-- The state after reset (R37): `Uninitialized`, brightness 255, no pixel count, pin or buffer, an empty trace, no
command in progress. The parameters have R7's defaults and the transmitter keeps R194's contract; the host has
presented nothing yet. -/
def State.reset : State where
  params := Config.defaultParams
  brightness := Config.brightnessDefault
  strip := .uninitialized
  inputs := []
  responses := []
  trace := []
  transmitter := .completes

end Sys2Proof.Machine
end

