-- ==== Sys2Proof/Machine/Ops.lean ====
section
/-! DEFINITION. Machine/Ops.lean: the named operations every command is written in: the buffer's bytes and the
primitives `MemRead` and `MemWrite` (20_memory.md rule R56), `respond`, `raise` and `emit` (00_scope.md rule R10), fault
entry (60_exceptions.md rule R186), the state check (rule R190), the transmit transaction (10_state.md rule R31), the
reset input (70_reset_and_hazards.md rule R210) and taking the host's next input. -/

namespace Sys2Proof.Machine

/-! ### Codes on the ports -/

/-- The 3-bit `status` field of a response (R180). -/
def Status.code : Status → BitVec 3
  | .ok => 0
  | .uninitializedUse => 1
  | .outOfRange => 2
  | .illegalCommand => 3
  | .capacity => 4
  | .configuration => 5

/-- The 1-bit `has_val` field of a response (R30). -/
def Response.hasVal (r : Response) : BitVec 1 := if r.val.isSome then 1 else 0

/-- The 1-bit `level` of a pin write (R33). -/
def Level.code : Level → BitVec 1
  | .low => 0
  | .high => 1

/-- The 1-bit `STATE` (R23: `Uninitialized` = 0, `Ready` = 1). -/
def Strip.code : Strip → BitVec 1
  | .uninitialized => 0
  | .ready _ => 1

/-! ### Bytes of the buffer -/

/-- What an offset reads as that is not listed: `INIT` gives "a zero-filled buffer" (R59, R150). -/
def Memory.unlisted : Byte := 0

/-- The byte at an offset. -/
def Memory.read : Memory → Nat → Byte
  | [], _ => Memory.unlisted
  | (k, b) :: rest, a => if k = a then b else Memory.read rest a

/-- The buffer with one byte stored, in canonical form: storing the byte an unlisted offset reads as removes the entry. -/
def Memory.write : Memory → Nat → Byte → Memory
  | [], a, v => if v = Memory.unlisted then [] else [(a, v)]
  | (k, b) :: rest, a, v =>
    if k < a then (k, b) :: Memory.write rest a v
    else if k = a then (if v = Memory.unlisted then rest else (a, v) :: rest)
    else if v = Memory.unlisted then (k, b) :: rest else (a, v) :: (k, b) :: rest

/-- The canonical form: offsets strictly rising, no entry equal to what an unlisted offset reads as. -/
abbrev Memory.wf (m : Memory) : Prop :=
  m.Pairwise (fun x y => x.1 < y.1) ∧ ∀ c ∈ m, c.2 ≠ Memory.unlisted

/-- Every listed offset is an offset of a buffer of `n` bytes (R50). -/
abbrev Memory.within (m : Memory) (n : Nat) : Prop := ∀ c ∈ m, c.1 < n

/-- `MemRead(addr, n)`: the bytes at `addr .. addr + n - 1` in ascending order (R56). -/
def memRead (m : Memory) : Nat → Nat → List Byte
  | _, 0 => []
  | addr, n + 1 => Memory.read m addr :: memRead m (addr + 1) n

/-- `MemWrite(addr, n, v)` with `n` the length of `v`: byte `k` of `v` to offset `addr + k` (R56). Every caller has
established `addr + n <= 3 * PIXEL_COUNT`, so the primitive never faults (R56; assumption log 8). -/
def memWrite (m : Memory) : Nat → List Byte → Memory
  | _, [] => m
  | addr, v :: vs => memWrite (Memory.write m addr v) (addr + 1) vs

/-- The length of the buffer in bytes: `3 * PIXEL_COUNT`, exact (R28, R51). -/
def bufSize (r : ReadyStrip) : Nat := Config.bytesPerPixel * r.pixelCount.toNat

/-- The offset of a pixel's first byte: `3 * i` (R52, R162). -/
def pixelOffset (i : Nat) : Nat := Config.bytesPerPixel * i

/-- The whole buffer, `MemRead(0, 3 * PIXEL_COUNT)`. -/
def wholeBuffer (r : ReadyStrip) : List Byte := memRead r.buf 0 (bufSize r)

/-- The strip with a pixel's bytes stored, `MemWrite(3 * i, 3, t)` (R154). -/
def writePixel (i : Nat) (t : List Byte) (r : ReadyStrip) : ReadyStrip :=
  { r with buf := memWrite r.buf (pixelOffset i) t }

/-- A strip just initialised with `n` pixels: the pin bound, the count set, every byte of the buffer 0 (R150). -/
def freshStrip (pin : Word) (n : Nat) : ReadyStrip :=
  { pixelCount := BitVec.ofNat 32 n, pin := pin, buf := [] }

/-! ### Writing single items of the state -/

/-- `STATE`, `PIXEL_COUNT`, `PIN` and `BUF` written. -/
def State.setStrip (strip : Strip) (s : State) : State := { s with strip := strip }

/-- `BRIGHTNESS` written. -/
def State.setBrightness (level : Byte) (s : State) : State := { s with brightness := level }

/-- The host's remaining inputs. -/
def State.setInputs (inputs : List HostInput) (s : State) : State := { s with inputs := inputs }

/-! ### Completing a command (R10, R30) -/

/-- One response sent. -/
def State.answer (r : Response) (s : State) : State := { s with responses := s.responses ++ [r] }

/-- `respond(v)` and `respond()`: status `OK`, with a value or none (R10). -/
def State.respond (val : Option Word) (s : State) : State := s.answer { status := .ok, val := val }

/-- Fault entry (R186): no state changes, no event, the response carries the code and no value, and control goes
nowhere. The next command is accepted as after an `OK` (R188), so there is no return operation. -/
def State.raise (fault : Status) (s : State) : State := s.answer { status := fault, val := none }

/-- `emit`: one event appended to the trace (R10, R32). -/
def State.emit (e : Event) (s : State) : State := { s with trace := s.trace ++ [e] }

/-! ### Gating and transmitting -/

/-- The state check of R190 (2): in `Uninitialized` the command raises `UNINITIALIZED_USE` whatever its operands are
(R181); in `Ready` it goes on with the strip. -/
def whenReady (s : State) (k : ReadyStrip → Result) : Result :=
  match s.strip with
  | .uninitialized => .next (s.raise .uninitializedUse)
  | .ready r => k r

/-- The event of one transmit transaction: the whole buffer in ascending offset order, and `PIN` (R31). -/
def transmitEvent (r : ReadyStrip) : Event := .transmit (wholeBuffer r) r.pin

/-- `SET_PIXEL`'s body after its checks: three stores, then a transmit of the whole buffer (R154, R155). -/
def storeAndTransmit (i : Nat) (t : List Byte) (r : ReadyStrip) (s : State) : State :=
  (s.setStrip (.ready (writePixel i t r))).emit (transmitEvent (writePixel i t r))

/-- `SHOW_COLOR`'s loop with `remaining` pixels to go from pixel `i`, in ascending order, then "one more explicit
transmit" (R157). The strip in `s` is `r`. -/
def fillAndTransmit (t : List Byte) : (remaining i : Nat) → ReadyStrip → State → State
  | 0, _, r, s => s.emit (transmitEvent r)
  | k + 1, i, r, s => fillAndTransmit t k (i + 1) (writePixel i t r) (storeAndTransmit i t r s)

/-- The end of a command that has transmitted: it waits for the transmitter and then responds (R31). If the transmitter
never completes the command never responds and nothing further is accepted (U8): the machine is stuck, at the first
transmit of the command as at any later one. -/
def finishTransmits (s : State) : Result :=
  match s.transmitter with
  | .completes => .next (s.respond none)
  | .neverCompletes => .fault .transmitterNeverCompletes

/-! ### The host's inputs -/

/-- The reset input (R210): PXC goes to the state of R37, emitting nothing. The parameters, the device and what the host
will present next are not PXC's and stay; the observation starts afresh (R37: "the event trace is empty"; assumption
log 5). -/
def State.resetInput (s : State) : State :=
  { State.reset with params := s.params, inputs := s.inputs, transmitter := s.transmitter }

/-- The next input of the host, and the state with it taken (R21, R30). -/
def takeInput (s : State) : Option (HostInput × State) :=
  match s.inputs with
  | [] => none
  | input :: rest => some (input, s.setInputs rest)

end Sys2Proof.Machine
end

