-- ==== Sys2Proof/Machine/Operands.lean ====
section
/-! DEFINITION. Machine/Operands.lean: how each operand field is read (30_encoding.md rules R86 to R91) and how a result
is assembled (rule R92). -/

namespace Sys2Proof.Machine

/-- A channel operand, or a level operand: the low 8 bits, `v & 0xFF` (R86, R88). -/
def low8 (v : Word) : Byte := v.extractLsb' 0 8

/-- `unpackRed(color) = color[23:16]` (R112, R133); bits 31:24 are ignored (R87). -/
def unpackRed (color : Word) : Byte := color.extractLsb' 16 8

/-- `unpackGreen(color) = color[15:8]` (R113, R133). -/
def unpackGreen (color : Word) : Byte := color.extractLsb' 8 8

/-- `unpackBlue(color) = color[7:0]` (R114, R133). -/
def unpackBlue (color : Word) : Byte := color.extractLsb' 0 8

/-- The length operand of `INIT`: `n = max(signed(B), 0)` (R89). -/
def lengthOperand (b : Word) : Nat := (max b.toInt 0).toNat

/-- The index operand of `SET_PIXEL` as an offset, `signed(A)` after its bounds check (R90, R162). -/
def indexOperand (a : Word) : Nat := a.toInt.toNat

/-- A byte result, `zext_32` (R92). -/
def byteResult (v : Byte) : Word := v.setWidth 32

/-- A colour result, `zext_32` (R92). -/
def colorResult (v : ColorWord) : Word := v.setWidth 32

end Sys2Proof.Machine
end

