-- ==== Sys2Proof/Machine/Codec.lean ====
section
/-! DEFINITION. Machine/Codec.lean: the Color Codec, `PACK`, `UNPACK_R`, `UNPACK_G`, `UNPACK_B` (40_color_codec.md rules
R111 to R114, R118): valid in both states, they read and write no state and emit nothing. -/

namespace Sys2Proof.Machine

/-- `(r8 << 16) | (g8 << 8) | b8` on 24 bits (R111). -/
def packColor (r g b : Word) : ColorWord :=
  ((low8 r).setWidth 24 <<< 16) ||| ((low8 g).setWidth 24 <<< 8) ||| (low8 b).setWidth 24

/-- `PACK r, g, b` (R111). -/
def execPack (r g b : Word) (s : State) : Result := .next (s.respond (some (colorResult (packColor r g b))))

/-- `UNPACK_R color` (R112). -/
def execUnpackR (color : Word) (s : State) : Result := .next (s.respond (some (byteResult (unpackRed color))))

/-- `UNPACK_G color` (R113). -/
def execUnpackG (color : Word) (s : State) : Result := .next (s.respond (some (byteResult (unpackGreen color))))

/-- `UNPACK_B color` (R114). -/
def execUnpackB (color : Word) (s : State) : Result := .next (s.respond (some (byteResult (unpackBlue color))))

end Sys2Proof.Machine
end

