-- ==== Sys2Proof/Machine/Flags.lean ====
section
/-! DEFINITION. Machine/Flags.lean: PXC has no status flags and no condition codes (10_state.md rule R22): the only
per-command outcome is the status of the response. This file holds the two operand conditions that decide that status
(60_exceptions.md rules R182, R183). The state condition is `whenReady` in Ops.lean. -/

namespace Sys2Proof.Machine

/-- `n > MAX_PIXELS`: the condition of `CAPACITY` (R183). -/
def capacityExceeded (p : Params) (n : Nat) : Bool := decide (n > p.maxPixels)

/-- `0 <= signed(A) < PIXEL_COUNT`: where it fails `SET_PIXEL` raises `OUT_OF_RANGE` (R90, R182). -/
def indexInRange (a : Word) (pixelCount : BitVec 32) : Bool :=
  decide (0 ≤ a.toInt) && decide (a.toInt < (pixelCount.toNat : Int))

end Sys2Proof.Machine
end

