-- ==== Sys2Proof/Machine/Scaler.lean ====
section
/-! DEFINITION. Machine/Scaler.lean: the brightness scaler (41_brightness_scaler.md rules R130, R133), the datapath
between a colour operand and the three bytes stored. -/

namespace Sys2Proof.Machine

/-- `scale8(c, br) = floor((c * br) / 255)` on exact integers (R130, R131); the quotient fits a byte (R132). -/
def scale8 (c br : Byte) : Byte := BitVec.ofNat 8 (c.toNat * br.toNat / Config.divisor)

/-- `scale_triplet(color, br)`: three independent lanes, in wire order green, red, blue (R133). -/
def scaleTriplet (color : Word) (br : Byte) : List Byte :=
  [scale8 (unpackGreen color) br, scale8 (unpackRed color) br, scale8 (unpackBlue color) br]

/-- The divider-free structure of R138, `(n + 1 + (n >> 8)) >> 8` in 17 bits with `n = c * br` (informative: no command
uses it). -/
def scale8ShiftAdd (c br : Byte) : Byte :=
  let n : BitVec 17 := c.setWidth 17 * br.setWidth 17
  ((n + 1#17 + (n >>> 8)) >>> 8).setWidth 8

end Sys2Proof.Machine
end

