-- ==== Sys2Proof/Machine/StripCommands.lean ====
section
/-! DEFINITION. Machine/StripCommands.lean: the Strip Buffer commands `INIT`, `SET_BRIGHTNESS`, `SET_PIXEL`,
`SHOW_COLOR` and `SHOW` (42_strip_buffer.md rules R150 to R159). -/

namespace Sys2Proof.Machine

/-- `BRIGHTNESS` after a successful `INIT`: 255 with `INIT_RESETS_BRIGHTNESS`, else as before (R151). -/
def brightnessAfterInit (s : State) : Byte :=
  if s.params.initResetsBrightness then Config.brightnessDefault else s.brightness

/-- `INIT pin, length` (R150, R152): valid in both states; `CAPACITY` before anything is written, else the strip is
replaced by a fresh one and the new pin is driven low once. -/
def execInit (pin length : Word) (s : State) : Result :=
  if capacityExceeded s.params (lengthOperand length) then .next (s.raise .capacity)
  else
    .next ((((s.setStrip (.ready (freshStrip pin (lengthOperand length)))).setBrightness
      (brightnessAfterInit s)).emit (.pinWrite pin .low)).respond none)

/-- `SET_BRIGHTNESS level` (R153): `BRIGHTNESS <- A[7:0]` and nothing else. -/
def execSetBrightness (level : Word) (s : State) : Result :=
  whenReady s fun _ => .next ((s.setBrightness (low8 level)).respond none)

/-- `SET_PIXEL index, color` (R154 to R156): the pixel's three bytes scaled by the present `BRIGHTNESS`, then one
transmit of the whole buffer. -/
def execSetPixel (index color : Word) (s : State) : Result :=
  whenReady s fun r =>
    if indexInRange index r.pixelCount then
      finishTransmits (storeAndTransmit (indexOperand index) (scaleTriplet color s.brightness) r s)
    else .next (s.raise .outOfRange)

/-- `SHOW_COLOR color` (R157, R158): every pixel in ascending order with a transmit after each, and one more at the
end. -/
def execShowColor (color : Word) (s : State) : Result :=
  whenReady s fun r =>
    finishTransmits (fillAndTransmit (scaleTriplet color s.brightness) r.pixelCount.toNat 0 r s)

/-- `SHOW` (R159): one transmit of the whole buffer; no state changes. -/
def execShow (s : State) : Result :=
  whenReady s fun r => finishTransmits (s.emit (transmitEvent r))

end Sys2Proof.Machine
end

