-- ==== Sys2Proof/Machine/Dispatch.lean ====
section
/-! DEFINITION. Machine/Dispatch.lean: one arm per command, each one direct call of its meaning. -/

namespace Sys2Proof.Machine

def exec (i : Instr) (s : State) : Host.Outcome State Fault Refusal :=
  match i with
  -- Color Codec (40_color_codec.md)
  | .pack r g b => Sys2Proof.Machine.execPack r g b s
  | .unpackR color => Sys2Proof.Machine.execUnpackR color s
  | .unpackG color => Sys2Proof.Machine.execUnpackG color s
  | .unpackB color => Sys2Proof.Machine.execUnpackB color s
  -- Strip Buffer (42_strip_buffer.md)
  | .init pin length => Sys2Proof.Machine.execInit pin length s
  | .setBrightness level => Sys2Proof.Machine.execSetBrightness level s
  | .setPixel index color => Sys2Proof.Machine.execSetPixel index color s
  | .showColor color => Sys2Proof.Machine.execShowColor color s
  | .showStrip => Sys2Proof.Machine.execShow s

end Sys2Proof.Machine
end

