-- ==== Sys2Proof/Machine/Step.lean ====
section
/-! DEFINITION. Machine/Step.lean: one step of the machine: the host's next input, taken and answered. PXC has no program
counter and fetches nothing (10_state.md rule R21): a command arrives as a 104-bit word on the command port. -/

namespace Sys2Proof.Machine

/-- A command word taken: decoded first (60_exceptions.md R190 (1)), then executed; a reserved opcode raises
`ILLEGAL_COMMAND` whatever the state is (R184). -/
def runWord (w : CmdWord) (s : State) : Result :=
  match decode w with
  | .command i => exec i s
  | .reservedOpcode _ => .next (s.raise .illegalCommand)

/-- One step. With nothing presented PXC waits (R212). A reset is taken between commands only (R211). A command runs to
completion in the one step (R60). -/
def step (s : State) : Host.Outcome State Fault Refusal :=
  match takeInput s with
  | none => .next s
  | some (.reset, s') => .next s'.resetInput
  | some (.command w, s') => runWord w s'

/-- The state in which the host presents the given word of the opcode table next (assumption log 2). -/
def State.withFetchWord (s : State) (nbits w : Nat) : State :=
  s.setInputs (.command (tableWord nbits w) :: s.inputs)

end Sys2Proof.Machine
end

