-- ==== Sys2Proof/Safety.lean ====
section
/-! DEFINITION. Safety.lean: the terms in which claims about PXC are stated: the invariant every step keeps, what a
run leaves in the observation, and a list of commands run one after another. -/

namespace Sys2Proof.Machine

/-- R23, R28, R50: a `Ready` strip has at most `MAX_PIXELS` pixels, a count that a signed length can name, and a buffer
in canonical form inside its `3 * PIXEL_COUNT` bytes. -/
def Strip.wf (p : Params) : Strip → Bool
  | .uninitialized => true
  | .ready r =>
    decide (r.pixelCount.toNat ≤ p.maxPixels) && decide (r.pixelCount.toNat ≤ Config.maxPixelsLimit) &&
      decide (Memory.wf r.buf) && decide (Memory.within r.buf (bufSize r))

/-- R31, R33: a pin write is low; a transmit carries whole pixels, at most `MAX_PIXELS` of them. -/
def Event.wf (p : Params) : Event → Bool
  | .pinWrite _ level => decide (level = .low)
  | .transmit bytes _ => decide (bytes.length % 3 = 0) && decide (bytes.length ≤ 3 * p.maxPixels)

/-- R30, R180: a value only with `OK`; the reserved `CONFIGURATION` never appears (R185). -/
def Response.wf (r : Response) : Bool :=
  (r.val.isNone || decide (r.status = .ok)) && decide (r.status ≠ .configuration)

/-- The invariant of the machine. Its second clause is R25: before the first `INIT` `BRIGHTNESS` is 255. -/
structure Invariant (s : State) : Prop where
  strip : s.strip.wf s.params = true
  brightness : s.strip = .uninitialized → s.brightness = Config.brightnessDefault
  responses : ∀ r ∈ s.responses, r.wf = true
  trace : ∀ e ∈ s.trace, e.wf s.params = true

/-- No command has faulted so far: the sticky bit that R22 leaves to a model's own safety predicate. -/
def faultFree (s : State) : Bool := s.responses.all fun r => decide (r.status = .ok)

/-- Only the observation differs: what PXC holds, its parameters and its device are the same (R20, R32). -/
def sameCore (s t : State) : Prop :=
  s.params = t.params ∧ s.brightness = t.brightness ∧ s.strip = t.strip ∧ s.transmitter = t.transmitter

/-- Is the event a transmit transaction? -/
def Event.isTransmit : Event → Bool
  | .transmit _ _ => true
  | .pinWrite _ _ => false

/-- The commands of a list run one after another from a state (R21), each by `exec`. -/
def runCommands : List Instr → State → Result
  | [], s => .next s
  | i :: rest, s =>
    match exec i s with
    | .next t => runCommands rest t
    | .fault f => .fault f
    | .refused f => .refused f

/-- The nine assigned opcodes of R81, as numbers. -/
def assignedOpcodes : List Byte := [0x01, 0x02, 0x03, 0x04, 0x10, 0x11, 0x12, 0x13, 0x14]

/-- The bits of a command word that R81 does not call ignored: the opcode and the operand fields in use. -/
def usedBits : Mnemonic → CmdWord
  | .PACK => 0xFFFFFFFFFFFFFFFFFFFFFFFFFF
  | .INIT | .SET_PIXEL => 0xFFFFFFFFFFFFFFFFFF00000000
  | .UNPACK_R | .UNPACK_G | .UNPACK_B | .SET_BRIGHTNESS | .SHOW_COLOR => 0xFFFFFFFFFF0000000000000000
  | .SHOW => 0xFF000000000000000000000000

/-- Is the command one of the Color Codec's four (R111 to R114)? -/
def isCodec : Instr → Bool
  | .pack _ _ _ | .unpackR _ | .unpackG _ | .unpackB _ => true
  | .init _ _ | .setBrightness _ | .setPixel _ _ | .showColor _ | .showStrip => false

/-- Does the command need the strip to be `Ready` (the column "in `Uninitialized`" of R160)? -/
def needsReady : Instr → Bool
  | .setBrightness _ | .setPixel _ _ | .showColor _ | .showStrip => true
  | .pack _ _ _ | .unpackR _ | .unpackG _ | .unpackB _ | .init _ _ => false

/-- The number of transmit transactions of a command that completes `OK` on a strip of `n` pixels (R220). -/
def transmitCount (n : Nat) : Instr → Nat
  | .setPixel _ _ | .showStrip => 1
  | .showColor _ => n + 1
  | .pack _ _ _ | .unpackR _ | .unpackG _ | .unpackB _ | .init _ _ | .setBrightness _ => 0

end Sys2Proof.Machine
end

