-- ==== Sys2Proof/Certificates/Slice0/Obligations.lean ====
section
/-! DEFINITION. Certificates/Slice0/Obligations.lean: the statements for the provers, taken from the numbered rules of
spec/. A record update `{ s with … }` on the right of an equation says at once what a command changes and that it
changes nothing else (its frame). -/

open Sys2Proof Sys2Proof.Machine

/-! ### Encoding (30_encoding.md) -/

/-- Decoding the word of a command gives the command back, every operand at every value. -/
def Obligations.DecodeOfEncodeIsTheCommand : Prop :=
  ∀ i : Instr, decode (encode i) = .command i

/-- The other direction (R82): the word of a decoded command is the word it was read from, with the fields R81 calls
ignored cleared; so an ignored field never selects another command, and no used bit is dropped. -/
def Obligations.EncodeOfDecodedKeepsUsedBits : Prop :=
  (∀ (w : CmdWord) (i : Instr), decode w = .command i → encode i = w &&& usedBits i.mnemonic) ∧
  (∀ (w w' : CmdWord) (i : Instr),
    decode w = .command i → w &&& usedBits i.mnemonic = w' &&& usedBits i.mnemonic → decode w' = .command i)

/-- R83: decoding is total and is the table of R81: the row of `OP`, with `A`, `B`, `C` from their bits; any other `OP` is
reserved (R84), 247 of them, the all-zero word's among them. It reads no state. -/
def Obligations.DecodingFollowsTheOpcodeTable : Prop :=
  (∀ w : CmdWord, decode w =
    if w.extractLsb' 96 8 = 0x01 then
      .command (.pack (w.extractLsb' 64 32) (w.extractLsb' 32 32) (w.extractLsb' 0 32))
    else if w.extractLsb' 96 8 = 0x02 then .command (.unpackR (w.extractLsb' 64 32))
    else if w.extractLsb' 96 8 = 0x03 then .command (.unpackG (w.extractLsb' 64 32))
    else if w.extractLsb' 96 8 = 0x04 then .command (.unpackB (w.extractLsb' 64 32))
    else if w.extractLsb' 96 8 = 0x10 then .command (.init (w.extractLsb' 64 32) (w.extractLsb' 32 32))
    else if w.extractLsb' 96 8 = 0x11 then .command (.setBrightness (w.extractLsb' 64 32))
    else if w.extractLsb' 96 8 = 0x12 then .command (.setPixel (w.extractLsb' 64 32) (w.extractLsb' 32 32))
    else if w.extractLsb' 96 8 = 0x13 then .command (.showColor (w.extractLsb' 64 32))
    else if w.extractLsb' 96 8 = 0x14 then .command .showStrip
    else .reservedOpcode (w.extractLsb' 96 8)) ∧
  decode 0 = .reservedOpcode 0 ∧
  ((List.range 256).filter fun n => decide (mnemonicOfCode (BitVec.ofNat 8 n) = none)).length = 247

/-- Words written out from the vectors of 95_test_vectors.md decode to the commands they stand for. -/
def Obligations.WrittenOutWordsDecode : Prop :=
  decode 0x01000000AA000000BB000000CC = .command (.pack 0xAA 0xBB 0xCC) ∧
  decode 0x0200AABBCCDEADBEEF12345678 = .command (.unpackR 0xAABBCC) ∧
  decode 0x03123456780000000000000000 = .command (.unpackG 0x12345678) ∧
  decode 0x04FFFFFF000000000000000000 = .command (.unpackB 0xFFFFFF00) ∧
  decode 0x1000000005FFFFFFFC00000000 = .command (.init 5 0xFFFFFFFC) ∧
  decode 0x11000000800000000000000000 = .command (.setBrightness 0x80) ∧
  decode 0x12FFFFFFFF00FFFFFF00000000 = .command (.setPixel 0xFFFFFFFF 0xFFFFFF) ∧
  decode 0x1300FF00000000000000000000 = .command (.showColor 0xFF0000) ∧
  decode 0x14000000010000000200000003 = .command .showStrip ∧
  decode 0x00111111112222222233333333 = .reservedOpcode 0x00 ∧
  decode 0x15111111112222222233333333 = .reservedOpcode 0x15

/-- R93, R94: where an assembler operand goes and what is rejected. An integer in `[0, 2^32 - 1]` is its own field, one
in `[-2^31, -1]` is its two's-complement pattern, and a command with any other integer is not assembled; a command with
acceptable operands in the number R93 gives is assembled. -/
def Obligations.AssemblerPlacesOperands : Prop :=
  (∀ v : Int, 0 ≤ v → v ≤ 2 ^ 32 - 1 → ((AsmOperand.number v).field.toNat : Int) = v) ∧
  (∀ v : Int, -(2 ^ 31) ≤ v → v ≤ -1 → (AsmOperand.number v).field.toInt = v) ∧
  (∀ (c : AsmCommand) (v : Int), AsmOperand.number v ∈ c.operands → v < -(2 ^ 31) ∨ 2 ^ 32 - 1 < v →
    assemble c = none) ∧
  (∀ c : AsmCommand, c.operands.length = c.mnemonic.arity →
    (∀ v : Int, AsmOperand.number v ∈ c.operands → -(2 ^ 31) ≤ v ∧ v ≤ 2 ^ 32 - 1) → (assemble c).isSome = true)

/-- R93's table: the word each assembler form assembles to is the encoding of its command with those operands, ignored
fields zero. -/
def Obligations.AssembledFormsEncodeAsTabled : Prop :=
  ∀ x y z : AsmOperand, x.wf = true → y.wf = true → z.wf = true →
    assemble ⟨.PACK, [x, y, z]⟩ = some (encode (.pack x.field y.field z.field)) ∧
    assemble ⟨.UNPACK_R, [x]⟩ = some (encode (.unpackR x.field)) ∧
    assemble ⟨.UNPACK_G, [x]⟩ = some (encode (.unpackG x.field)) ∧
    assemble ⟨.UNPACK_B, [x]⟩ = some (encode (.unpackB x.field)) ∧
    assemble ⟨.INIT, [x, y]⟩ = some (encode (.init x.field y.field)) ∧
    assemble ⟨.SET_BRIGHTNESS, [x]⟩ = some (encode (.setBrightness x.field)) ∧
    assemble ⟨.SET_PIXEL, [x, y]⟩ = some (encode (.setPixel x.field y.field)) ∧
    assemble ⟨.SHOW_COLOR, [x]⟩ = some (encode (.showColor x.field)) ∧
    assemble ⟨.SHOW, []⟩ = some (encode .showStrip)

/-! ### One step (10_state.md rule R21, 60_exceptions.md rule R190, 70_reset_and_hazards.md rule R210) -/

/-- When the word the host presents next decodes to a command, the step is `exec` of that command in the state with the
word taken; and the word that `withFetchWord` presents is run by the very next step. The list of the host's inputs is the
model's choice (log entry 2). -/
def Obligations.StepRunsTheDecodedCommand : Prop :=
  (∀ (s : State) (w : CmdWord) (rest : List HostInput) (i : Instr),
    s.inputs = .command w :: rest → decode w = .command i → step s = exec i { s with inputs := rest }) ∧
  (∀ (s : State) (nbits w : Nat) (i : Instr),
    decodeTableWord nbits w = some i → step (s.withFetchWord nbits w) = exec i s)

/-- R184: a word with a reserved `OP` raises `ILLEGAL_COMMAND`, in either state, and nothing changes. -/
def Obligations.ReservedOpcodeRaisesIllegalCommand : Prop :=
  (∀ (s : State) (w : CmdWord) (rest : List HostInput),
    s.inputs = .command w :: rest → w.extractLsb' 96 8 ∉ assignedOpcodes →
      step s = .next { s with inputs := rest, responses := s.responses ++ [⟨.illegalCommand, none⟩] }) ∧
  (∀ (i : Instr) (s t : State), exec i s = .next t → t.responses ≠ s.responses ++ [⟨.illegalCommand, none⟩])

/-- The reset input puts PXC in the state of R37: `Uninitialized` (no pixel count, pin or buffer), brightness 255, and
no event. The parameters and what the host presents next are not PXC's and stay. That the trace restarts here is the
model's choice (log entry 5). -/
def Obligations.ResetInputGivesTheResetState : Prop :=
  ∀ (s : State) (rest : List HostInput), s.inputs = .reset :: rest →
    ∃ t, step s = .next t ∧ t.strip = .uninitialized ∧ t.brightness = 255 ∧ t.trace = [] ∧
      t.inputs = rest ∧ t.params = s.params

/-- R37: the state after reset. That it carries R7's default parameters and an empty list of responses is the model's
choice (log entries 1 and 3). -/
def Obligations.ResetStateAsSpecified : Prop :=
  State.reset.strip = .uninitialized ∧ State.reset.brightness = 255 ∧ State.reset.trace = [] ∧
    State.reset.responses = [] ∧ State.reset.params = ⟨2147483647, false⟩

/-- R212: with no command presented PXC waits, and nothing changes. That waiting is a step is the model's choice (log
entry 2). -/
def Obligations.WaitsForACommand : Prop :=
  ∀ s : State, s.inputs = [] → step s = .next s

/-! ### Color Codec (40_color_codec.md): results, completion in every state, and frame -/

/-- R111: `PACK` completes in every state with the colour word as its value and changes nothing else. The value is the
sum of the three shifted low bytes, `{0, r8, g8, b8}`. -/
def Obligations.PackResult : Prop :=
  (∀ w : CmdWord, w.extractLsb' 96 8 = 0x01 →
    decode w = .command (.pack (w.extractLsb' 64 32) (w.extractLsb' 32 32) (w.extractLsb' 0 32))) ∧
  (∀ (r g b : Word) (s : State), ∃ v : Word,
    exec (.pack r g b) s = .next { s with responses := s.responses ++ [⟨.ok, some v⟩] } ∧
    v = (0 : Byte) ++ r.extractLsb' 0 8 ++ g.extractLsb' 0 8 ++ b.extractLsb' 0 8 ∧
    v.toNat = r.toNat % 256 * 65536 + g.toNat % 256 * 256 + b.toNat % 256)

/-- R112 to R114: each unpack command completes in every state with its byte, zero-extended, as its value and changes
nothing else. -/
def Obligations.UnpackResults : Prop :=
  (∀ w : CmdWord,
    (w.extractLsb' 96 8 = 0x02 → decode w = .command (.unpackR (w.extractLsb' 64 32))) ∧
    (w.extractLsb' 96 8 = 0x03 → decode w = .command (.unpackG (w.extractLsb' 64 32))) ∧
    (w.extractLsb' 96 8 = 0x04 → decode w = .command (.unpackB (w.extractLsb' 64 32)))) ∧
  (∀ (color : Word) (s : State), ∃ red green blue : Word,
    exec (.unpackR color) s = .next { s with responses := s.responses ++ [⟨.ok, some red⟩] } ∧
    exec (.unpackG color) s = .next { s with responses := s.responses ++ [⟨.ok, some green⟩] } ∧
    exec (.unpackB color) s = .next { s with responses := s.responses ++ [⟨.ok, some blue⟩] } ∧
    red = (color >>> 16) &&& 0xFF ∧ green = (color >>> 8) &&& 0xFF ∧ blue = color &&& 0xFF ∧
    red.toNat ≤ 255 ∧ green.toNat ≤ 255 ∧ blue.toNat ≤ 255)

/-- R115: unpacking a packed colour gives the low byte of each operand, and packing the three channels of a colour gives
its low 24 bits. -/
def Obligations.PackUnpackRoundTrip : Prop :=
  (∀ r g b : Word,
    byteResult (unpackRed (colorResult (packColor r g b))) = r &&& 0xFF ∧
    byteResult (unpackGreen (colorResult (packColor r g b))) = g &&& 0xFF ∧
    byteResult (unpackBlue (colorResult (packColor r g b))) = b &&& 0xFF) ∧
  (∀ c : Word,
    colorResult (packColor (byteResult (unpackRed c)) (byteResult (unpackGreen c)) (byteResult (unpackBlue c))) =
      c &&& 0xFFFFFF)

/-- R116: packing depends on the low byte of each operand only. -/
def Obligations.PackKeepsLowBytes : Prop :=
  (∀ r g b : Word, packColor r g b = packColor (r &&& 0xFF) (g &&& 0xFF) (b &&& 0xFF)) ∧
  (∀ r g b r' g' b' : Word, r &&& 0xFF = r' &&& 0xFF → g &&& 0xFF = g' &&& 0xFF → b &&& 0xFF = b' &&& 0xFF →
    packColor r g b = packColor r' g' b') ∧
  packColor (256 + 5) 0 0 = packColor 5 0 0

/-- The named colours of R117 have the fields of its table. -/
def Obligations.NamedColorsHaveTabledFields : Prop :=
  (namedColors.map fun c =>
      (c.value.toNat, (unpackRed (colorResult c.value)).toNat, (unpackGreen (colorResult c.value)).toNat,
        (unpackBlue (colorResult c.value)).toNat)) =
    [(0xFF0000, 255, 0, 0), (0xFFA500, 255, 165, 0), (0xFFFF00, 255, 255, 0), (0x00FF00, 0, 255, 0),
     (0x0000FF, 0, 0, 255), (0x4B0082, 75, 0, 130), (0x8A2BE2, 138, 43, 226), (0xFF00FF, 255, 0, 255),
     (0xFFFFFF, 255, 255, 255), (0x000000, 0, 0, 0)]

/-! ### Brightness scaler (41_brightness_scaler.md) -/

/-- R130, R132: the scaled channel is the exact integer quotient; it is at most the channel and at most the brightness,
so the byte store truncates nothing. -/
def Obligations.ScaledChannelIsExactQuotient : Prop :=
  ∀ c br : Byte,
    c.toNat * br.toNat ≤ 65025 ∧
    (scale8 c br).toNat = c.toNat * br.toNat / 255 ∧
    c.toNat * br.toNat / 255 ≤ min c.toNat br.toNat ∧
    (scale8 c br).toNat ≤ 255

/-- R134: full brightness changes nothing, on a channel and on a pixel. -/
def Obligations.FullBrightnessIsIdentity : Prop :=
  (∀ c : Byte, scale8 c 255 = c) ∧
  (∀ color : Word, scaleTriplet color 255 = [color.extractLsb' 8 8, color.extractLsb' 16 8, color.extractLsb' 0 8])

/-- R135: zero brightness, or a zero channel, gives zero; and at `BRIGHTNESS = 0` every successful `SET_PIXEL` stores
three zero bytes whatever the colour. -/
def Obligations.ZeroBrightnessStoresZero : Prop :=
  (∀ c : Byte, scale8 c 0 = 0) ∧ (∀ br : Byte, scale8 0 br = 0) ∧
  (∀ (index color : Word) (s : State) (r : ReadyStrip), s.strip = .ready r → Memory.wf r.buf → s.brightness = 0 →
    0 ≤ index.toInt → index.toInt < r.pixelCount.toNat → s.transmitter = .completes →
    ∃ t r', exec (.setPixel index color) s = .next t ∧ t.strip = .ready r' ∧
      ∀ k, k < 3 → Memory.read r'.buf (3 * index.toInt.toNat + k) = 0)

/-- R136: symmetry, full channel, monotonicity, truncation rather than rounding, and division by 255 rather than 256. -/
def Obligations.ScalerLaws : Prop :=
  (∀ c br : Byte, scale8 c br = scale8 br c) ∧
  (∀ br : Byte, scale8 255 br = br) ∧
  (∀ c₁ c₂ br : Byte, c₁ ≤ c₂ → scale8 c₁ br ≤ scale8 c₂ br ∧ scale8 br c₁ ≤ scale8 br c₂) ∧
  (scale8 1 254 = 0 ∧ scale8 3 84 = 0 ∧ scale8 3 85 = 1 ∧ scale8 254 254 = 253 ∧ scale8 128 128 = 64) ∧
  ((List.range 65536).countP (fun n => decide
      ((scale8 (BitVec.ofNat 8 (n / 256)) (BitVec.ofNat 8 (n % 256))).toNat ≠ n / 256 * (n % 256) / 256)) = 16678 ∧
    scale8 255 255 = 255 ∧ 255 * 255 / 256 = 254 ∧
    ∀ d : Nat, (∀ c : Nat, c ≤ 255 → c * 255 / d = c) → d = 255)

/-- R138: the divider-free structure computes the same byte; the identity it rests on holds up to 65534 and fails at
65535. -/
def Obligations.ShiftAddScalerAgrees : Prop :=
  (∀ c br : Byte, scale8ShiftAdd c br = scale8 c br) ∧
  (∀ n : Nat, n ≤ 65534 → n / 255 = (n + 1 + (n >>> 8)) >>> 8) ∧
  65535 / 255 ≠ (65535 + 1 + (65535 >>> 8)) >>> 8

/-- R133: the triplet is the three scaled channels in the order green, red, blue; bits 31:24 of the colour have no
effect, and each byte depends on its own channel and the brightness only. -/
def Obligations.TripletIsScaledChannelsInWireOrder : Prop :=
  (∀ (color : Word) (br : Byte),
    (scaleTriplet color br).map BitVec.toNat =
      [color.toNat / 256 % 256 * br.toNat / 255, color.toNat / 65536 % 256 * br.toNat / 255,
       color.toNat % 256 * br.toNat / 255]) ∧
  (∀ (color color' : Word) (br : Byte), color &&& 0xFFFFFF = color' &&& 0xFFFFFF →
    scaleTriplet color br = scaleTriplet color' br)

/-! ### Strip Buffer commands (42_strip_buffer.md): results, completion, and frame -/

/-- R150, R152: with `n = max(signed(length), 0) <= MAX_PIXELS`, `INIT` completes in either state, whatever strip was
there: `Ready`, the pin bound, `n` pixels, `3n` bytes all zero, one low pin write on the new pin, no transmit,
`BRIGHTNESS` by the parameter of R151, and nothing else changed. With `n > MAX_PIXELS` it raises `CAPACITY` and changes
nothing, the old strip included. -/
def Obligations.InitReplacesTheStrip : Prop :=
  (∀ w : CmdWord, w.extractLsb' 96 8 = 0x10 →
    decode w = .command (.init (w.extractLsb' 64 32) (w.extractLsb' 32 32))) ∧
  (∀ (pin length : Word) (s : State), max length.toInt 0 ≤ s.params.maxPixels →
    ∃ r : ReadyStrip,
      exec (.init pin length) s = .next
        { s with
          strip := .ready r
          brightness := if s.params.initResetsBrightness then 255 else s.brightness
          trace := s.trace ++ [.pinWrite pin .low]
          responses := s.responses ++ [⟨.ok, none⟩] } ∧
      r.pin = pin ∧ (r.pixelCount.toNat : Int) = max length.toInt 0 ∧
      wholeBuffer r = List.replicate (3 * (max length.toInt 0).toNat) 0 ∧
      ∀ a, a < 3 * r.pixelCount.toNat → Memory.read r.buf a = 0) ∧
  (∀ (pin length : Word) (s : State), s.params.maxPixels < max length.toInt 0 →
    exec (.init pin length) s = .next { s with responses := s.responses ++ [⟨.capacity, none⟩] })

/-- R183: `CAPACITY` is raised only by `INIT`, exactly when `max(signed(length), 0)` exceeds `MAX_PIXELS`; nothing
changes; with the default `MAX_PIXELS` it never occurs. -/
def Obligations.CapacityRaisedOnlyByInit : Prop :=
  (∀ (i : Instr) (s t : State), exec i s = .next t →
    (t.responses = s.responses ++ [⟨.capacity, none⟩] ↔
      ∃ pin length, i = .init pin length ∧ s.params.maxPixels < max length.toInt 0)) ∧
  (∀ (i : Instr) (s t : State), exec i s = .next t → t.responses = s.responses ++ [⟨.capacity, none⟩] →
    t = { s with responses := s.responses ++ [⟨.capacity, none⟩] }) ∧
  (∀ length : Word, max length.toInt 0 ≤ Config.defaultParams.maxPixels)

/-- R151, R25: with `INIT_RESETS_BRIGHTNESS` false no `INIT` changes `BRIGHTNESS`; with it true every successful `INIT`
leaves 255; and the first `INIT` after reset leaves 255 under either value. -/
def Obligations.InitBrightnessByParameter : Prop :=
  ∀ (pin length : Word) (s t : State), exec (.init pin length) s = .next t →
    (s.params.initResetsBrightness = false → t.brightness = s.brightness) ∧
    (s.params.initResetsBrightness = true → max length.toInt 0 ≤ s.params.maxPixels → t.brightness = 255) ∧
    (Invariant s → s.strip = .uninitialized → t.brightness = 255)

/-- R153: in `Ready`, `SET_BRIGHTNESS` completes with `BRIGHTNESS` the low 8 bits of its operand: the buffer, the rest of
the strip and the trace unchanged; in `Uninitialized` it raises `UNINITIALIZED_USE`. -/
def Obligations.SetBrightnessStoresLowByte : Prop :=
  (∀ w : CmdWord, w.extractLsb' 96 8 = 0x11 → decode w = .command (.setBrightness (w.extractLsb' 64 32))) ∧
  (∀ (level : Word) (s : State) (r : ReadyStrip), s.strip = .ready r →
    ∃ b : Byte,
      exec (.setBrightness level) s =
        .next { s with brightness := b, responses := s.responses ++ [⟨.ok, none⟩] } ∧
      b.toNat = level.toNat % 256) ∧
  (∀ (level : Word) (s : State), s.strip = .uninitialized →
    exec (.setBrightness level) s = .next { s with responses := s.responses ++ [⟨.uninitializedUse, none⟩] })

/-- R154, R155: in `Ready`, with the index in range, `SET_PIXEL` completes: the three bytes at `3 * index` are the scaled
green, red and blue channels, every other byte reads as before, one transmit of the whole new buffer is appended, and
nothing else changes. Out of range, and in `Uninitialized`, it faults and changes nothing. -/
def Obligations.SetPixelStoresAndTransmits : Prop :=
  (∀ w : CmdWord, w.extractLsb' 96 8 = 0x12 →
    decode w = .command (.setPixel (w.extractLsb' 64 32) (w.extractLsb' 32 32))) ∧
  (∀ (index color : Word) (s : State) (r : ReadyStrip), s.strip = .ready r → Memory.wf r.buf →
    s.transmitter = .completes → 0 ≤ index.toInt → index.toInt < r.pixelCount.toNat →
    ∃ buf : Memory,
      exec (.setPixel index color) s = .next
        { s with
          strip := .ready { r with buf := buf }
          trace := s.trace ++
            [.transmit ((List.range (3 * r.pixelCount.toNat)).map fun a => Memory.read buf a) r.pin]
          responses := s.responses ++ [⟨.ok, none⟩] } ∧
      (Memory.read buf (pixelOffset (indexOperand index))).toNat =
        color.toNat / 256 % 256 * s.brightness.toNat / 255 ∧
      (Memory.read buf (pixelOffset (indexOperand index) + 1)).toNat =
        color.toNat / 65536 % 256 * s.brightness.toNat / 255 ∧
      (Memory.read buf (pixelOffset (indexOperand index) + 2)).toNat =
        color.toNat % 256 * s.brightness.toNat / 255 ∧
      (∀ a, a < pixelOffset (indexOperand index) ∨ pixelOffset (indexOperand index) + 3 ≤ a →
        Memory.read buf a = Memory.read r.buf a) ∧
      (pixelOffset (indexOperand index) : Int) = 3 * index.toInt) ∧
  (∀ (index color : Word) (s : State) (r : ReadyStrip), s.strip = .ready r →
    index.toInt < 0 ∨ (r.pixelCount.toNat : Int) ≤ index.toInt →
    exec (.setPixel index color) s = .next { s with responses := s.responses ++ [⟨.outOfRange, none⟩] }) ∧
  (∀ (index color : Word) (s : State), s.strip = .uninitialized →
    exec (.setPixel index color) s = .next { s with responses := s.responses ++ [⟨.uninitializedUse, none⟩] })

/-- R53: the two byte orders. In a colour word red is most significant; a colour written at full brightness to pixel `i`
appears as `BUF[3i] = c[15:8]`, `BUF[3i+1] = c[23:16]`, `BUF[3i+2] = c[7:0]`. -/
def Obligations.WireOrderAtFullBrightness : Prop :=
  (∀ r g b : Word, (packColor r g b).extractLsb' 16 8 = r.extractLsb' 0 8 ∧
    (packColor r g b).extractLsb' 8 8 = g.extractLsb' 0 8 ∧ (packColor r g b).extractLsb' 0 8 = b.extractLsb' 0 8) ∧
  (∀ (index color : Word) (s : State) (r : ReadyStrip), s.strip = .ready r → Memory.wf r.buf →
    s.transmitter = .completes → s.brightness = 255 → 0 ≤ index.toInt → index.toInt < r.pixelCount.toNat →
    ∃ t r', exec (.setPixel index color) s = .next t ∧ t.strip = .ready r' ∧
      Memory.read r'.buf (3 * index.toInt.toNat) = color.extractLsb' 8 8 ∧
      Memory.read r'.buf (3 * index.toInt.toNat + 1) = color.extractLsb' 16 8 ∧
      Memory.read r'.buf (3 * index.toInt.toNat + 2) = color.extractLsb' 0 8)

/-- R157, R158: in `Ready`, `SHOW_COLOR` completes: with `t` the scaled triplet, every pixel's bytes are `t`; the events
are one transmit after each pixel, the `k`-th with pixels `0 .. k-1` new and the others old, and one more of the full
buffer; nothing else changes. In `Uninitialized` it raises `UNINITIALIZED_USE`. -/
def Obligations.ShowColorFillsAndTransmits : Prop :=
  (∀ w : CmdWord, w.extractLsb' 96 8 = 0x13 → decode w = .command (.showColor (w.extractLsb' 64 32))) ∧
  (∀ (color : Word) (s : State) (r : ReadyStrip), s.strip = .ready r → Memory.wf r.buf →
    s.transmitter = .completes →
    ∃ buf : Memory,
      exec (.showColor color) s = .next
        { s with
          strip := .ready { r with buf := buf }
          trace := s.trace ++
            ((List.range r.pixelCount.toNat).map fun k =>
              .transmit ((List.range (3 * r.pixelCount.toNat)).map fun a =>
                if a < 3 * (k + 1) then (scaleTriplet color s.brightness).getD (a % 3) 0
                else Memory.read r.buf a) r.pin) ++
            [.transmit ((List.range (3 * r.pixelCount.toNat)).map fun a =>
              (scaleTriplet color s.brightness).getD (a % 3) 0) r.pin]
          responses := s.responses ++ [⟨.ok, none⟩] } ∧
      ∀ a, Memory.read buf a =
        if a < 3 * r.pixelCount.toNat then (scaleTriplet color s.brightness).getD (a % 3) 0
        else Memory.read r.buf a) ∧
  (∀ (color : Word) (s : State), s.strip = .uninitialized →
    exec (.showColor color) s = .next { s with responses := s.responses ++ [⟨.uninitializedUse, none⟩] })

/-- "`showColor(color)`: sets every pixel … via repeated `setPixel` calls … then performs one more explicit transmit":
`SHOW_COLOR` has the effect of `SET_PIXEL 0, color` to `SET_PIXEL PIXEL_COUNT - 1, color` followed by `SHOW`, on
everything but the responses (one where they have `PIXEL_COUNT + 1`). -/
def Obligations.ShowColorIsRepeatedSetPixelThenShow : Prop :=
  ∀ (color : Word) (s : State) (r : ReadyStrip), Invariant s → s.strip = .ready r → s.transmitter = .completes →
    ∃ t u,
      exec (.showColor color) s = .next t ∧
      runCommands
        (((List.range r.pixelCount.toNat).map fun k => .setPixel (BitVec.ofNat 32 k) color) ++ [.showStrip]) s =
          .next u ∧
      { t with responses := [] } = { u with responses := [] } ∧
      t.responses = s.responses ++ [⟨.ok, none⟩] ∧
      u.responses = s.responses ++ List.replicate (r.pixelCount.toNat + 1) ⟨.ok, none⟩

/-- R159: in `Ready`, `SHOW` completes with one transmit of the whole buffer and the pin, and no state changes; in
`Uninitialized` it raises `UNINITIALIZED_USE`. -/
def Obligations.ShowTransmitsTheBuffer : Prop :=
  (∀ w : CmdWord, w.extractLsb' 96 8 = 0x14 → decode w = .command .showStrip) ∧
  (∀ (s : State) (r : ReadyStrip), s.strip = .ready r → s.transmitter = .completes →
    exec .showStrip s = .next
      { s with
        trace := s.trace ++
          [.transmit ((List.range (3 * r.pixelCount.toNat)).map fun a => Memory.read r.buf a) r.pin]
        responses := s.responses ++ [⟨.ok, none⟩] }) ∧
  (∀ s : State, s.strip = .uninitialized →
    exec .showStrip s = .next { s with responses := s.responses ++ [⟨.uninitializedUse, none⟩] })

/-- R58: storing the byte an offset already holds leaves the same buffer; reading the buffer changes nothing and a second
`SHOW` transmits the identical buffer, at once or after commands that do not write the buffer; and a `SET_PIXEL` repeated
with the same operands leaves the same strip and transmits the same whole buffer a second time, or, uninitialized or out
of range, faults as before with no event. -/
def Obligations.RepeatedShowAndSetPixelAreIdempotent : Prop :=
  (∀ (m : Memory) (a : Nat), Memory.wf m → Memory.write m a (Memory.read m a) = m) ∧
  (∀ (s : State) (r : ReadyStrip), s.strip = .ready r → s.transmitter = .completes →
    ∃ t, runCommands [.showStrip, .showStrip] s = .next t ∧ t.strip = s.strip ∧
      t.trace = s.trace ++ [.transmit (wholeBuffer r) r.pin, .transmit (wholeBuffer r) r.pin]) ∧
  (∀ (between : List Instr) (s t : State) (r : ReadyStrip), s.strip = .ready r →
    (∀ i ∈ between, i.mnemonic ≠ .INIT ∧ i.mnemonic ≠ .SET_PIXEL ∧ i.mnemonic ≠ .SHOW_COLOR) →
    runCommands (.showStrip :: between) s = .next t →
    s.trace ++ [.transmit (wholeBuffer r) r.pin] <+: t.trace ∧
      ∃ u, exec .showStrip t = .next u ∧ u.strip = s.strip ∧
        u.trace = t.trace ++ [.transmit (wholeBuffer r) r.pin]) ∧
  (∀ (index color : Word) (s t u : State), Invariant s → exec (.setPixel index color) s = .next t →
    exec (.setPixel index color) t = .next u →
    u.strip = t.strip ∧
      ((∃ r r', s.strip = .ready r ∧ 0 ≤ index.toInt ∧ index.toInt < r.pixelCount.toNat ∧ t.strip = .ready r' ∧
          t.trace = s.trace ++ [.transmit (wholeBuffer r') r'.pin] ∧
          u.trace = s.trace ++ [.transmit (wholeBuffer r') r'.pin, .transmit (wholeBuffer r') r'.pin]) ∨
       (s.strip = .uninitialized ∧ t.strip = s.strip ∧ t.trace = s.trace ∧ u.trace = s.trace ∧
          u.responses = s.responses ++ [⟨.uninitializedUse, none⟩, ⟨.uninitializedUse, none⟩]) ∨
       (∃ r, s.strip = .ready r ∧ (index.toInt < 0 ∨ (r.pixelCount.toNat : Int) ≤ index.toInt) ∧
          t.strip = s.strip ∧ t.trace = s.trace ∧ u.trace = s.trace ∧
          u.responses = s.responses ++ [⟨.outOfRange, none⟩, ⟨.outOfRange, none⟩])))

/-! ### Faults and whole-machine rules (60_exceptions.md, 10_state.md, 70_reset_and_hazards.md) -/

/-- R186, R191: whatever word the host presents, the step appends one response, and where its status is not `OK` the
step has changed nothing else, emitted nothing and returned no value. -/
def Obligations.FaultChangesNothing : Prop :=
  ∀ (s t : State) (w : CmdWord) (rest : List HostInput), s.inputs = .command w :: rest → step s = .next t →
    ∃ resp : Response, t.responses = s.responses ++ [resp] ∧
      (resp.status ≠ .ok →
        t = { s with inputs := rest, responses := s.responses ++ [resp] } ∧ resp.val = none)

/-- R30: every command gets exactly one response, and it carries a value exactly when the command is one of the Color
Codec's. -/
def Obligations.OneResponsePerCommand : Prop :=
  ∀ (i : Instr) (s t : State), exec i s = .next t →
    ∃ resp : Response, t.responses = s.responses ++ [resp] ∧
      (resp.val.isSome = isCodec i) ∧ (isCodec i = true → resp.status = .ok)

/-- R181: `UNINITIALIZED_USE` is raised exactly by `SET_BRIGHTNESS`, `SET_PIXEL`, `SHOW_COLOR` and `SHOW` in
`Uninitialized`, whatever their operands are; the state stays `Uninitialized` and nothing changes. -/
def Obligations.UninitializedUseExactly : Prop :=
  (∀ (i : Instr) (s : State), needsReady i = true → s.strip = .uninitialized →
    exec i s = .next { s with responses := s.responses ++ [⟨.uninitializedUse, none⟩] }) ∧
  (∀ (i : Instr) (s t : State), exec i s = .next t → t.responses = s.responses ++ [⟨.uninitializedUse, none⟩] →
    needsReady i = true ∧ s.strip = .uninitialized)

/-- R182: `OUT_OF_RANGE` is raised exactly by `SET_PIXEL` in `Ready` with `signed(A) < 0` or `signed(A) >=
PIXEL_COUNT`: no byte is written, no transmit is made, the index is neither clamped nor wrapped. -/
def Obligations.OutOfRangeExactly : Prop :=
  (∀ (i : Instr) (s t : State), exec i s = .next t →
    (t.responses = s.responses ++ [⟨.outOfRange, none⟩] ↔
      ∃ index color r, i = .setPixel index color ∧ s.strip = .ready r ∧
        (index.toInt < 0 ∨ (r.pixelCount.toNat : Int) ≤ index.toInt))) ∧
  (∀ (i : Instr) (s t : State), exec i s = .next t → t.responses = s.responses ++ [⟨.outOfRange, none⟩] →
    t = { s with responses := s.responses ++ [⟨.outOfRange, none⟩] })

/-- R185: no step ever produces the status `CONFIGURATION`; an `INIT` with a negative length completes `OK` with no
pixels. -/
def Obligations.ConfigurationNeverRaised : Prop :=
  (∀ (s t : State) (w : CmdWord) (rest : List HostInput), s.inputs = .command w :: rest → step s = .next t →
    ∀ v, t.responses ≠ s.responses ++ [⟨.configuration, v⟩]) ∧
  (∀ (pin length : Word) (s : State), length.toInt < 0 →
    ∃ t r, exec (.init pin length) s = .next t ∧ t.strip = .ready r ∧ r.pixelCount = 0 ∧
      t.responses = s.responses ++ [⟨.ok, none⟩])

/-- R190: the order of checks. A reserved `OP` is reported whatever the state is; in `Uninitialized` a strip command
other than `INIT` reports the state, not its operands; only then are operands checked. -/
def Obligations.ChecksInOrder : Prop :=
  ∀ (s : State) (w : CmdWord) (rest : List HostInput), s.inputs = .command w :: rest →
    (w.extractLsb' 96 8 ∉ assignedOpcodes →
      ∃ t, step s = .next t ∧ t.responses = s.responses ++ [⟨.illegalCommand, none⟩]) ∧
    (w.extractLsb' 96 8 ∈ [0x11, 0x12, 0x13, 0x14] → s.strip = .uninitialized →
      ∃ t, step s = .next t ∧ t.responses = s.responses ++ [⟨.uninitializedUse, none⟩]) ∧
    (w.extractLsb' 96 8 = 0x10 → s.params.maxPixels < max (w.extractLsb' 32 32).toInt 0 →
      ∃ t, step s = .next t ∧ t.responses = s.responses ++ [⟨.capacity, none⟩]) ∧
    (w.extractLsb' 96 8 = 0x12 → ∀ r, s.strip = .ready r →
      ¬(0 ≤ (w.extractLsb' 64 32).toInt ∧ (w.extractLsb' 64 32).toInt < r.pixelCount.toNat) →
      ∃ t, step s = .next t ∧ t.responses = s.responses ++ [⟨.outOfRange, none⟩])

/-- R24: a strip once `Ready` stays `Ready` until the reset input, and it becomes `Ready` only by an `INIT` that
completes `OK`. -/
def Obligations.ReadyIsLeftOnlyByReset : Prop :=
  (∀ s t : State, step s = .next t → s.strip ≠ .uninitialized → t.strip = .uninitialized →
    ∃ rest, s.inputs = .reset :: rest) ∧
  (∀ s t : State, step s = .next t → s.strip = .uninitialized → t.strip ≠ .uninitialized →
    ∃ w rest pin length, s.inputs = .command w :: rest ∧ decode w = .command (.init pin length) ∧
      t.responses = s.responses ++ [⟨.ok, none⟩])

/-- The columns "written by" of R23: `STATE` is changed only by `INIT` (from `Uninitialized` no other command makes the
strip `Ready`, and none leaves `Ready`); `BRIGHTNESS` only by `SET_BRIGHTNESS`, or by `INIT` with
`INIT_RESETS_BRIGHTNESS`; the pixel count and the pin of a `Ready` strip only by `INIT`; its buffer only by `INIT`,
`SET_PIXEL` and `SHOW_COLOR`. That no command changes the parameters, the host's inputs or the transmitter is about the
model's own fields (log entries 1, 2 and 6). -/
def Obligations.EachItemWrittenOnlyByItsCommands : Prop :=
  ∀ (i : Instr) (s t : State), exec i s = .next t →
    t.params = s.params ∧ t.inputs = s.inputs ∧ t.transmitter = s.transmitter ∧
    (t.brightness ≠ s.brightness →
      i.mnemonic = .SET_BRIGHTNESS ∨ (i.mnemonic = .INIT ∧ s.params.initResetsBrightness = true)) ∧
    (t.strip ≠ s.strip → i.mnemonic = .INIT ∨ i.mnemonic = .SET_PIXEL ∨ i.mnemonic = .SHOW_COLOR) ∧
    (i.mnemonic ≠ .INIT → s.strip = .uninitialized → t.strip = .uninitialized) ∧
    (s.strip ≠ .uninitialized → t.strip ≠ .uninitialized) ∧
    (i.mnemonic ≠ .INIT → ∀ r, s.strip = .ready r →
      ∃ r', t.strip = .ready r' ∧ r'.pixelCount = r.pixelCount ∧ r'.pin = r.pin)

/-- R137, R156: brightness is not retroactive. A pixel keeps its bytes until it is written again: whatever command runs,
`SET_BRIGHTNESS` among them, the bytes of pixel `p` are as before unless the command is an `INIT`, a `SHOW_COLOR`, or a
`SET_PIXEL` of that pixel. -/
def Obligations.PixelKeptUntilWrittenAgain : Prop :=
  ∀ (i : Instr) (s t : State) (r : ReadyStrip) (p : Nat), exec i s = .next t → s.strip = .ready r →
    i.mnemonic ≠ .INIT → i.mnemonic ≠ .SHOW_COLOR → (∀ index color, i = .setPixel index color → index.toInt ≠ p) →
    ∃ r', t.strip = .ready r' ∧ ∀ k, k < 3 → Memory.read r'.buf (3 * p + k) = Memory.read r.buf (3 * p + k)

/-- R220, R31, R33: the events of every command. A fault makes none. On success there are as many transmits as
`transmitCount` says, each of `3 * PIXEL_COUNT` bytes and the pin of the strip; `INIT` makes its one low pin write and
nothing else; the transmit of `SET_PIXEL` and of `SHOW` carries the whole buffer the command leaves; the `k`-th transmit
of `SHOW_COLOR` carries the bytes it leaves in pixels `0 .. k-1` and the bytes it found in the others, and its last one
the whole buffer it leaves; the other commands make no event. -/
def Obligations.TransmitsPerCommand : Prop :=
  ∀ (i : Instr) (s t : State), exec i s = .next t →
    ∃ events : List Event, t.trace = s.trace ++ events ∧
      (t.responses = s.responses ++ [⟨.ok, none⟩] → ∀ r, t.strip = .ready r →
        (events.filter Event.isTransmit).length = transmitCount r.pixelCount.toNat i) ∧
      (t.responses ≠ s.responses ++ [⟨.ok, none⟩] → events = []) ∧
      (∀ bytes pin, Event.transmit bytes pin ∈ events →
        ∃ r, s.strip = .ready r ∧ pin = r.pin ∧ bytes.length = 3 * r.pixelCount.toNat) ∧
      (∀ pin level, Event.pinWrite pin level ∈ events →
        events = [.pinWrite pin .low] ∧ ∃ length, i = .init pin length) ∧
      (t.responses = s.responses ++ [⟨.ok, none⟩] →
        (∀ pin length, i = .init pin length → events = [.pinWrite pin .low]) ∧
        (i.mnemonic = .SET_BRIGHTNESS → events = []) ∧
        (i.mnemonic = .SET_PIXEL ∨ i.mnemonic = .SHOW → ∀ r, t.strip = .ready r →
          events = [.transmit (wholeBuffer r) r.pin]) ∧
        (i.mnemonic = .SHOW_COLOR → ∀ r r', s.strip = .ready r → Memory.wf r.buf → t.strip = .ready r' →
          events =
            ((List.range r.pixelCount.toNat).map fun k =>
              .transmit ((List.range (3 * r.pixelCount.toNat)).map fun a =>
                if a < 3 * (k + 1) then Memory.read r'.buf a else Memory.read r.buf a) r.pin) ++
            [.transmit (wholeBuffer r') r.pin]))

/-- The trace and the responses are never read by a command (R20, R32): from two states that hold the same, a command
does the same, appends the same response and the same events, whatever was observed before. -/
def Obligations.ObservationIsNeverRead : Prop :=
  ∀ (i : Instr) (s s' t : State), sameCore s s' → exec i s = .next t →
    ∃ (t' : State) (responses : List Response) (events : List Event),
      exec i s' = .next t' ∧ sameCore t t' ∧
      t.responses = s.responses ++ responses ∧ t'.responses = s'.responses ++ responses ∧
      t.trace = s.trace ++ events ∧ t'.trace = s'.trace ++ events

/-- The result of a Color Codec command depends on its operands only: not on the state of the strip, the brightness, the
parameters or what was observed before (R118). -/
def Obligations.CodecResultIndependentOfState : Prop :=
  ∀ (i : Instr), isCodec i = true → ∃ v : Word, ∀ s : State,
    exec i s = .next { s with responses := s.responses ++ [⟨.ok, some v⟩] }

/-- Every command completes or faults with a response: from every state whose transmitter completes (R194), `exec`
answers a next state; it refuses nothing in any state; and a command that makes no transmit is answered whatever the
transmitter does (the model's choice of log entry 6). -/
def Obligations.EveryCommandIsAnswered : Prop :=
  (∀ (i : Instr) (s : State), s.transmitter = .completes → ∃ t, exec i s = .next t) ∧
  (∀ (i : Instr) (s : State) (f : Refusal), exec i s ≠ .refused f) ∧
  (∀ (i : Instr) (s : State), transmitCount 0 i = 0 → ∃ t, exec i s = .next t)

/-- A transmitter that never completes (93_implementation_defined.md U8, treatment `stuck`): exactly the commands that
reach a transmit are stuck. The model's choice of how a hang is said is log entry 6. -/
def Obligations.StuckExactlyWhenTransmitNeverCompletes : Prop :=
  ∀ (i : Instr) (s : State) (f : Fault), exec i s = .fault f ↔
    (s.transmitter = .neverCompletes ∧ ∃ r, s.strip = .ready r ∧
      (i = .showStrip ∨ (∃ color, i = .showColor color) ∨
        ∃ index color, i = .setPixel index color ∧ 0 ≤ index.toInt ∧ index.toInt < r.pixelCount.toNat))

/-- Each step takes exactly the host's next input, and the trace and the responses only grow, unless the input is the
reset (R32, R61). -/
def Obligations.ObservationOnlyGrows : Prop :=
  ∀ (s t : State) (w : CmdWord) (rest : List HostInput), s.inputs = .command w :: rest → step s = .next t →
    t.inputs = rest ∧ s.responses <+: t.responses ∧ t.responses.length = s.responses.length + 1 ∧ s.trace <+: t.trace

/-! ### The invariant -/

/-- The invariant holds right after reset. -/
def Obligations.ResetStateMeetsTheInvariant : Prop := Invariant State.reset

/-- Every step keeps the invariant, from every state that meets it, whatever the host presents: the buffer stays in
canonical form inside its `3 * PIXEL_COUNT` bytes, the pixel count stays at most `MAX_PIXELS`, `BRIGHTNESS` is 255 until
the first `INIT`, pin writes are low, transmits carry whole pixels, and values come with `OK` only (R25, R28, R30,
R33). -/
def Obligations.StepKeepsTheInvariant : Prop :=
  ∀ s t : State, Invariant s → step s = .next t → Invariant t
end

