-- ==== Sys2Proof/Laws/Decode.lean ====
section
/-! SUPPORT. Laws/Decode.lean: the fields of a word put together, and the opcode table read both ways. -/

namespace Sys2Proof

@[simp] theorem opField_cmdWord (op : Byte) (a b c : Word) : opField (cmdWord op a b c) = op := by
  simp only [opField, cmdWord]; ext i hi; simp; grind

@[simp] theorem fieldA_cmdWord (op : Byte) (a b c : Word) : fieldA (cmdWord op a b c) = a := by
  simp only [fieldA, cmdWord]; ext i hi; simp; grind

@[simp] theorem fieldB_cmdWord (op : Byte) (a b c : Word) : fieldB (cmdWord op a b c) = b := by
  simp only [fieldB, cmdWord]; ext i hi; simp; grind

@[simp] theorem fieldC_cmdWord (op : Byte) (a b c : Word) : fieldC (cmdWord op a b c) = c := by
  simp only [fieldC, cmdWord]; ext i hi; simp; grind

@[simp] theorem mnemonicOfCode_code (m : Mnemonic) : mnemonicOfCode m.code = some m := by cases m <;> decide

/-- An opcode is a mnemonic's or one of the reserved ones (R84). -/
theorem mnemonicOfCode_eq_some {op : Byte} {m : Mnemonic} (h : mnemonicOfCode op = some m) : m.code = op := by
  simpa using List.find?_some h

theorem decode_of_assigned {w : CmdWord} {m : Mnemonic} (h : opField w = m.code) :
    decode w = .command (Instr.ofFields m (fieldA w) (fieldB w) (fieldC w)) := by
  simp [decode, h]

theorem decode_of_reserved {w : CmdWord} (h : mnemonicOfCode (opField w) = none) :
    decode w = .reservedOpcode (opField w) := by
  simp [decode, h]

end Sys2Proof
end

