-- ==== Sys2Proof/Laws/Operands.lean ====
section
/-! SUPPORT. Laws/Operands.lean: what each operand, packed colour and scaled byte is as a number. -/

namespace Sys2Proof.Machine

theorem low8_toNat (v : Word) : (low8 v).toNat = v.toNat % 256 := by
  simp [low8, BitVec.extractLsb'_toNat]

theorem unpackRed_toNat (v : Word) : (unpackRed v).toNat = v.toNat / 65536 % 256 := by
  simp [unpackRed, BitVec.extractLsb'_toNat, Nat.shiftRight_eq_div_pow]

theorem unpackGreen_toNat (v : Word) : (unpackGreen v).toNat = v.toNat / 256 % 256 := by
  simp [unpackGreen, BitVec.extractLsb'_toNat, Nat.shiftRight_eq_div_pow]

theorem unpackBlue_toNat (v : Word) : (unpackBlue v).toNat = v.toNat % 256 := by
  simp [unpackBlue, BitVec.extractLsb'_toNat]

theorem byteResult_toNat (v : Byte) : (byteResult v).toNat = v.toNat := by
  have := v.isLt
  simp only [byteResult, BitVec.toNat_setWidth]; omega

/-- The OR of R111's three shifted fields is their sum, since they do not overlap. -/
theorem packColor_toNat (r g b : Word) :
    (packColor r g b).toNat = r.toNat % 256 * 65536 + g.toNat % 256 * 256 + b.toNat % 256 := by
  have h : packColor r g b = low8 r ++ low8 g ++ low8 b := by
    simp only [packColor]; ext i hi; simp; grind
  rw [h, BitVec.toNat_append, BitVec.toNat_append, ← Nat.shiftLeft_add_eq_or_of_lt (low8 g).isLt,
    ← Nat.shiftLeft_add_eq_or_of_lt (low8 b).isLt, low8_toNat, low8_toNat, low8_toNat]
  simp only [Nat.shiftLeft_eq]; omega

/-- R89: a signed 32-bit length gives at most `2^31 - 1` pixels. -/
theorem lengthOperand_le (b : Word) : lengthOperand b ≤ 2 ^ 31 - 1 := by
  have := BitVec.toInt_lt (x := b)
  simp only [lengthOperand]; omega

theorem freshStrip_pixelCount (pin b : Word) :
    (freshStrip pin (lengthOperand b)).pixelCount.toNat = lengthOperand b := by
  have := lengthOperand_le b
  simp only [freshStrip, BitVec.toNat_ofNat]; omega

theorem indexInRange_iff (a : Word) (n : BitVec 32) :
    indexInRange a n = true ↔ 0 ≤ a.toInt ∧ a.toInt < (n.toNat : Int) := by
  simp [indexInRange]

/-- R90, R162: an index that passes the check names a pixel of the buffer. -/
theorem indexOperand_lt {a : Word} {n : BitVec 32} (h : indexInRange a n = true) : indexOperand a < n.toNat := by
  have := (indexInRange_iff a n).1 h
  simp only [indexOperand]; omega

/-- R130, R132: the quotient fits the byte. -/
theorem scale8_toNat (c br : Byte) : (scale8 c br).toNat = c.toNat * br.toNat / 255 := by
  have h : c.toNat * br.toNat ≤ 255 * 255 := Nat.mul_le_mul (by omega) (by omega)
  simp only [scale8, Config.divisor, BitVec.toNat_ofNat]
  omega

@[simp] theorem scaleTriplet_length (c : Word) (br : Byte) : (scaleTriplet c br).length = 3 := rfl

end Sys2Proof.Machine
end

