-- ==== Sys2Proof/Laws/Memory.lean ====
section
/-! SUPPORT. Laws/Memory.lean: the laws of the buffer's bytes (20_memory.md rule R56): a read after a write, that every
operation keeps the canonical form and stays inside the buffer, and that canonical buffers with equal bytes are equal. -/

namespace Sys2Proof.Machine

@[simp] theorem Memory.read_nil (a : Nat) : Memory.read [] a = Memory.unlisted := rfl

theorem Memory.read_cons (k : Nat) (b : Byte) (rest : Memory) (a : Nat) :
    Memory.read ((k, b) :: rest) a = if k = a then b else Memory.read rest a := rfl

theorem Memory.read_unlisted_of_lt {m : Memory} {a : Nat} (h : ∀ c ∈ m, a < c.1) :
    Memory.read m a = Memory.unlisted := by
  induction m with
  | nil => rfl
  | cons c rest ih =>
    obtain ⟨k, b⟩ := c
    have hk : a < k := h (k, b) (by simp)
    rw [Memory.read_cons, if_neg (by omega)]
    exact ih fun c hc => h c (by simp [hc])

theorem Memory.wf_cons {k : Nat} {b : Byte} {rest : Memory} :
    Memory.wf ((k, b) :: rest) ↔ (∀ c ∈ rest, k < c.1) ∧ b ≠ Memory.unlisted ∧ Memory.wf rest := by
  simp only [Memory.wf, List.pairwise_cons, List.mem_cons, forall_eq_or_imp]
  tauto

theorem Memory.wf_nil : Memory.wf [] := by simp [Memory.wf]

theorem Memory.read_write_other (m : Memory) {a b : Nat} (v : Byte) (h : b ≠ a) :
    Memory.read (Memory.write m a v) b = Memory.read m b := by
  induction m with
  | nil =>
    simp only [Memory.write]
    split
    · rfl
    · rw [Memory.read_cons, if_neg (Ne.symm h)]
  | cons c rest ih =>
    obtain ⟨k, w⟩ := c
    simp only [Memory.write]
    split
    · simp only [Memory.read_cons, ih]
    · split
      · subst k
        split <;> simp [Memory.read_cons, Ne.symm h]
      · split
        · rfl
        · rw [Memory.read_cons, if_neg (Ne.symm h)]

theorem Memory.read_write_same {m : Memory} (hm : Memory.wf m) (a : Nat) (v : Byte) :
    Memory.read (Memory.write m a v) a = v := by
  induction m with
  | nil =>
    simp only [Memory.write]
    split
    · simp_all
    · simp [Memory.read_cons]
  | cons c rest ih =>
    obtain ⟨k, w⟩ := c
    obtain ⟨hlt, hw, hrest⟩ := Memory.wf_cons.1 hm
    simp only [Memory.write]
    split
    · rename_i hka
      rw [Memory.read_cons, if_neg (by omega), ih hrest]
    · split
      · subst k
        split
        · rename_i hv
          rw [hv]
          exact Memory.read_unlisted_of_lt hlt
        · simp [Memory.read_cons]
      · split
        · rename_i hka hne hv
          rw [hv, Memory.read_cons, if_neg hne]
          exact Memory.read_unlisted_of_lt fun c hc => by have := hlt c hc; omega
        · simp [Memory.read_cons]

theorem Memory.read_write {m : Memory} (hm : Memory.wf m) (a b : Nat) (v : Byte) :
    Memory.read (Memory.write m a v) b = if b = a then v else Memory.read m b := by
  split
  · subst b; exact Memory.read_write_same hm a v
  · exact Memory.read_write_other m v (by assumption)

/-- A write lists no offset that was not listed, but the one it stores to. -/
theorem Memory.mem_write {m : Memory} {a : Nat} {v : Byte} {c : Host.Cell} (h : c ∈ Memory.write m a v) :
    c ∈ m ∨ (c = (a, v) ∧ v ≠ Memory.unlisted) := by
  induction m with
  | nil =>
    simp only [Memory.write] at h
    split at h <;> simp_all
  | cons d rest ih =>
    obtain ⟨k, w⟩ := d
    simp only [Memory.write] at h
    split at h
    · rcases List.mem_cons.1 h with h | h
      · simp [h]
      · rcases ih h with h | h <;> simp [h]
    · split at h
      · split at h
        · simp [h]
        · rcases List.mem_cons.1 h with h | h <;> simp_all
      · split at h
        · exact .inl h
        · rcases List.mem_cons.1 h with h | h
          · simp_all
          · exact .inl h

theorem Memory.wf_write {m : Memory} (hm : Memory.wf m) (a : Nat) (v : Byte) : Memory.wf (Memory.write m a v) := by
  induction m with
  | nil =>
    simp only [Memory.write]
    split
    · exact Memory.wf_nil
    · exact Memory.wf_cons.2 ⟨by simp, by assumption, Memory.wf_nil⟩
  | cons c rest ih =>
    obtain ⟨k, w⟩ := c
    obtain ⟨hlt, hw, hrest⟩ := Memory.wf_cons.1 hm
    simp only [Memory.write]
    split
    · rename_i hka
      refine Memory.wf_cons.2 ⟨fun c hc => ?_, hw, ih hrest⟩
      rcases Memory.mem_write hc with h | ⟨rfl, -⟩
      · exact hlt c h
      · exact hka
    · split
      · subst k
        split
        · exact hrest
        · exact Memory.wf_cons.2 ⟨hlt, by assumption, hrest⟩
      · split
        · exact hm
        · refine Memory.wf_cons.2 ⟨fun c hc => ?_, by assumption, hm⟩
          rcases List.mem_cons.1 hc with rfl | h
          · show a < k; omega
          · have := hlt c h; omega

theorem Memory.within_write {m : Memory} {n a : Nat} (hm : Memory.within m n) (ha : a < n) (v : Byte) :
    Memory.within (Memory.write m a v) n := by
  intro c hc
  rcases Memory.mem_write hc with h | ⟨rfl, -⟩
  · exact hm c h
  · exact ha

/-- Two canonical buffers with equal bytes are equal data. -/
theorem Memory.ext_of_read {m m' : Memory} (hm : Memory.wf m) (hm' : Memory.wf m')
    (h : ∀ a, Memory.read m a = Memory.read m' a) : m = m' := by
  induction m generalizing m' with
  | nil =>
    cases m' with
    | nil => rfl
    | cons c rest =>
      obtain ⟨k, b⟩ := c
      obtain ⟨-, hb, -⟩ := Memory.wf_cons.1 hm'
      have := h k
      simp [Memory.read_cons] at this
      exact absurd this.symm hb
  | cons c rest ih =>
    obtain ⟨k, b⟩ := c
    obtain ⟨hlt, hb, hrest⟩ := Memory.wf_cons.1 hm
    cases m' with
    | nil =>
      have := h k
      simp [Memory.read_cons] at this
      exact absurd this hb
    | cons c' rest' =>
      obtain ⟨k', b'⟩ := c'
      obtain ⟨hlt', hb', hrest'⟩ := Memory.wf_cons.1 hm'
      have hkk : k = k' := by
        rcases Nat.lt_trichotomy k k' with hlt1 | heq | hgt
        · have h1 := h k
          rw [Memory.read_cons, if_pos rfl, Memory.read_cons, if_neg (by omega),
            Memory.read_unlisted_of_lt fun c hc => by have := hlt' c hc; omega] at h1
          exact absurd h1 hb
        · exact heq
        · have h1 := h k'
          rw [Memory.read_cons, if_neg (by omega), Memory.read_cons, if_pos rfl,
            Memory.read_unlisted_of_lt fun c hc => by have := hlt c hc; omega] at h1
          exact absurd h1.symm hb'
      subst hkk
      have hbb : b = b' := by simpa [Memory.read_cons] using h k
      subst hbb
      congr 1
      refine ih hrest hrest' fun a => ?_
      by_cases hka : k = a
      · subst hka
        rw [Memory.read_unlisted_of_lt hlt, Memory.read_unlisted_of_lt hlt']
      · simpa [Memory.read_cons, hka] using h a

/-! ### `MemRead` and `MemWrite` -/

@[simp] theorem memRead_length (m : Memory) (a n : Nat) : (memRead m a n).length = n := by
  induction n generalizing a with
  | zero => rfl
  | succ n ih => simp [memRead, ih]

theorem memRead_eq_map (m : Memory) (a n : Nat) :
    memRead m a n = (List.range n).map fun k => Memory.read m (a + k) := by
  induction n generalizing a with
  | zero => rfl
  | succ n ih =>
    rw [memRead, ih, List.range_succ_eq_map, List.map_cons, List.map_map]
    refine congrArg₂ _ rfl (List.map_congr_left fun k _ => ?_)
    simp only [Function.comp]
    congr 1; omega

theorem memWrite_wf {m : Memory} (hm : Memory.wf m) (a : Nat) (vs : List Byte) : Memory.wf (memWrite m a vs) := by
  induction vs generalizing m a with
  | nil => exact hm
  | cons v vs ih => exact ih (Memory.wf_write hm a v) (a + 1)

theorem memWrite_within {m : Memory} {n a : Nat} (hm : Memory.within m n) (vs : List Byte) (h : a + vs.length ≤ n) :
    Memory.within (memWrite m a vs) n := by
  induction vs generalizing m a with
  | nil => exact hm
  | cons v vs ih =>
    simp only [List.length_cons] at h
    exact ih (Memory.within_write hm (by omega) v) (by omega)

/-- R56: byte `k` of the list to offset `addr + k`, every other byte unchanged. -/
theorem read_memWrite {m : Memory} (hm : Memory.wf m) (a : Nat) (vs : List Byte) (b : Nat) :
    Memory.read (memWrite m a vs) b =
      if a ≤ b ∧ b < a + vs.length then vs.getD (b - a) 0 else Memory.read m b := by
  induction vs generalizing m a with
  | nil => simp [memWrite]
  | cons v vs ih =>
    rw [memWrite, ih (Memory.wf_write hm a v), Memory.read_write hm]
    simp only [List.length_cons]
    by_cases h1 : b = a
    · subst h1; simp
    · by_cases h2 : a + 1 ≤ b ∧ b < a + 1 + vs.length
      · rw [if_pos h2, if_pos (by omega)]
        obtain ⟨d, rfl⟩ : ∃ d, b = a + 1 + d := ⟨b - (a + 1), by omega⟩
        rw [show a + 1 + d - (a + 1) = d by omega, show a + 1 + d - a = d + 1 by omega, List.getD_cons_succ]
      · rw [if_neg h2, if_neg h1, if_neg (by omega)]

/-- The frame of a store, with no premise on the buffer. -/
theorem read_memWrite_outside (m : Memory) (a : Nat) (vs : List Byte) {b : Nat} (h : b < a ∨ a + vs.length ≤ b) :
    Memory.read (memWrite m a vs) b = Memory.read m b := by
  induction vs generalizing m a with
  | nil => rfl
  | cons v vs ih =>
    simp only [List.length_cons] at h
    rw [memWrite, ih _ _ (by omega), Memory.read_write_other _ _ (by omega)]

/-! ### Pixels -/

@[simp] theorem writePixel_pixelCount (i : Nat) (t : List Byte) (r : ReadyStrip) :
    (writePixel i t r).pixelCount = r.pixelCount := rfl
@[simp] theorem writePixel_pin (i : Nat) (t : List Byte) (r : ReadyStrip) : (writePixel i t r).pin = r.pin := rfl
@[simp] theorem writePixel_bufSize (i : Nat) (t : List Byte) (r : ReadyStrip) :
    bufSize (writePixel i t r) = bufSize r := rfl
theorem writePixel_buf (i : Nat) (t : List Byte) (r : ReadyStrip) :
    (writePixel i t r).buf = memWrite r.buf (pixelOffset i) t := rfl

theorem read_writePixel_inside (i : Nat) (t : List Byte) {r : ReadyStrip} (h : Memory.wf r.buf) {k : Nat}
    (hk : k < t.length) : Memory.read (writePixel i t r).buf (pixelOffset i + k) = t.getD k 0 := by
  rw [writePixel_buf, read_memWrite h, if_pos (by omega), Nat.add_sub_cancel_left]

theorem read_writePixel_outside (i : Nat) (t : List Byte) (r : ReadyStrip) {a : Nat}
    (h : a < pixelOffset i ∨ pixelOffset i + t.length ≤ a) :
    Memory.read (writePixel i t r).buf a = Memory.read r.buf a :=
  read_memWrite_outside r.buf _ t h

@[simp] theorem freshStrip_pin (pin : Word) (n : Nat) : (freshStrip pin n).pin = pin := rfl
@[simp] theorem freshStrip_buf (pin : Word) (n : Nat) : (freshStrip pin n).buf = [] := rfl

theorem wholeBuffer_eq_map (r : ReadyStrip) :
    wholeBuffer r = (List.range (3 * r.pixelCount.toNat)).map fun a => Memory.read r.buf a := by
  simp [wholeBuffer, bufSize, Config.bytesPerPixel, memRead_eq_map]

@[simp] theorem wholeBuffer_length (r : ReadyStrip) : (wholeBuffer r).length = 3 * r.pixelCount.toNat := by
  simp [wholeBuffer, bufSize, Config.bytesPerPixel]

end Sys2Proof.Machine
end

