-- ==== Sys2Proof/Laws/State.lean ====
section
/-! SUPPORT. Laws/State.lean: one lemma per field and per update of State, so that no proof unfolds a record update. -/

namespace Sys2Proof.Machine

section setters
variable (s : State) (st : Strip) (b : Byte) (xs : List HostInput)

@[simp] theorem State.setStrip_params : (s.setStrip st).params = s.params := rfl
@[simp] theorem State.setStrip_brightness : (s.setStrip st).brightness = s.brightness := rfl
@[simp] theorem State.setStrip_strip : (s.setStrip st).strip = st := rfl
@[simp] theorem State.setStrip_inputs : (s.setStrip st).inputs = s.inputs := rfl
@[simp] theorem State.setStrip_responses : (s.setStrip st).responses = s.responses := rfl
@[simp] theorem State.setStrip_trace : (s.setStrip st).trace = s.trace := rfl
@[simp] theorem State.setStrip_transmitter : (s.setStrip st).transmitter = s.transmitter := rfl

@[simp] theorem State.setBrightness_params : (s.setBrightness b).params = s.params := rfl
@[simp] theorem State.setBrightness_brightness : (s.setBrightness b).brightness = b := rfl
@[simp] theorem State.setBrightness_strip : (s.setBrightness b).strip = s.strip := rfl
@[simp] theorem State.setBrightness_inputs : (s.setBrightness b).inputs = s.inputs := rfl
@[simp] theorem State.setBrightness_responses : (s.setBrightness b).responses = s.responses := rfl
@[simp] theorem State.setBrightness_trace : (s.setBrightness b).trace = s.trace := rfl
@[simp] theorem State.setBrightness_transmitter : (s.setBrightness b).transmitter = s.transmitter := rfl

@[simp] theorem State.setInputs_params : (s.setInputs xs).params = s.params := rfl
@[simp] theorem State.setInputs_brightness : (s.setInputs xs).brightness = s.brightness := rfl
@[simp] theorem State.setInputs_strip : (s.setInputs xs).strip = s.strip := rfl
@[simp] theorem State.setInputs_inputs : (s.setInputs xs).inputs = xs := rfl
@[simp] theorem State.setInputs_responses : (s.setInputs xs).responses = s.responses := rfl
@[simp] theorem State.setInputs_trace : (s.setInputs xs).trace = s.trace := rfl
@[simp] theorem State.setInputs_transmitter : (s.setInputs xs).transmitter = s.transmitter := rfl
end setters

section completions
variable (s : State) (r : Response) (v : Option Word) (f : Status) (e : Event)

@[simp] theorem State.answer_params : (s.answer r).params = s.params := rfl
@[simp] theorem State.answer_brightness : (s.answer r).brightness = s.brightness := rfl
@[simp] theorem State.answer_strip : (s.answer r).strip = s.strip := rfl
@[simp] theorem State.answer_inputs : (s.answer r).inputs = s.inputs := rfl
@[simp] theorem State.answer_responses : (s.answer r).responses = s.responses ++ [r] := rfl
@[simp] theorem State.answer_trace : (s.answer r).trace = s.trace := rfl
@[simp] theorem State.answer_transmitter : (s.answer r).transmitter = s.transmitter := rfl

@[simp] theorem State.respond_params : (s.respond v).params = s.params := rfl
@[simp] theorem State.respond_brightness : (s.respond v).brightness = s.brightness := rfl
@[simp] theorem State.respond_strip : (s.respond v).strip = s.strip := rfl
@[simp] theorem State.respond_inputs : (s.respond v).inputs = s.inputs := rfl
@[simp] theorem State.respond_responses : (s.respond v).responses = s.responses ++ [⟨.ok, v⟩] := rfl
@[simp] theorem State.respond_trace : (s.respond v).trace = s.trace := rfl
@[simp] theorem State.respond_transmitter : (s.respond v).transmitter = s.transmitter := rfl

@[simp] theorem State.raise_params : (s.raise f).params = s.params := rfl
@[simp] theorem State.raise_brightness : (s.raise f).brightness = s.brightness := rfl
@[simp] theorem State.raise_strip : (s.raise f).strip = s.strip := rfl
@[simp] theorem State.raise_inputs : (s.raise f).inputs = s.inputs := rfl
@[simp] theorem State.raise_responses : (s.raise f).responses = s.responses ++ [⟨f, none⟩] := rfl
@[simp] theorem State.raise_trace : (s.raise f).trace = s.trace := rfl
@[simp] theorem State.raise_transmitter : (s.raise f).transmitter = s.transmitter := rfl

@[simp] theorem State.emit_params : (s.emit e).params = s.params := rfl
@[simp] theorem State.emit_brightness : (s.emit e).brightness = s.brightness := rfl
@[simp] theorem State.emit_strip : (s.emit e).strip = s.strip := rfl
@[simp] theorem State.emit_inputs : (s.emit e).inputs = s.inputs := rfl
@[simp] theorem State.emit_responses : (s.emit e).responses = s.responses := rfl
@[simp] theorem State.emit_trace : (s.emit e).trace = s.trace ++ [e] := rfl
@[simp] theorem State.emit_transmitter : (s.emit e).transmitter = s.transmitter := rfl
end completions

section resetting
variable (s : State)

@[simp] theorem State.resetInput_params : s.resetInput.params = s.params := rfl
@[simp] theorem State.resetInput_brightness : s.resetInput.brightness = Config.brightnessDefault := rfl
@[simp] theorem State.resetInput_strip : s.resetInput.strip = .uninitialized := rfl
@[simp] theorem State.resetInput_inputs : s.resetInput.inputs = s.inputs := rfl
@[simp] theorem State.resetInput_responses : s.resetInput.responses = [] := rfl
@[simp] theorem State.resetInput_trace : s.resetInput.trace = [] := rfl
@[simp] theorem State.resetInput_transmitter : s.resetInput.transmitter = s.transmitter := rfl
end resetting

end Sys2Proof.Machine
end

