-- ==== Sys2Proof/Laws/Ops.lean ====
section
/-! SUPPORT. Laws/Ops.lean: for each shared operation, once, everything it can do. -/

namespace Sys2Proof.Machine

/-! ### Completing a command, as record updates -/

theorem State.respond_eq (v : Option Word) (s : State) :
    s.respond v = { s with responses := s.responses ++ [⟨.ok, v⟩] } := rfl

theorem State.raise_eq (f : Status) (s : State) :
    s.raise f = { s with responses := s.responses ++ [⟨f, none⟩] } := rfl

/-! ### The state check (R190 (2)) -/

@[simp] theorem whenReady_uninitialized {s : State} (h : s.strip = .uninitialized) (k : ReadyStrip → Result) :
    whenReady s k = .next (s.raise .uninitializedUse) := by
  simp [whenReady, h]

@[simp] theorem whenReady_ready {s : State} {r : ReadyStrip} (h : s.strip = .ready r) (k : ReadyStrip → Result) :
    whenReady s k = k r := by
  simp [whenReady, h]

/-- The state check raises `UNINITIALIZED_USE`, or the command goes on with the strip. -/
theorem whenReady_cases (s : State) (k : ReadyStrip → Result) :
    (s.strip = .uninitialized ∧ whenReady s k = .next (s.raise .uninitializedUse)) ∨
      ∃ r, s.strip = .ready r ∧ whenReady s k = k r := by
  cases h : s.strip with
  | uninitialized => exact .inl ⟨rfl, whenReady_uninitialized h k⟩
  | ready r => exact .inr ⟨r, rfl, whenReady_ready h k⟩

/-! ### Waiting for the transmitter (R31, U8) -/

@[simp] theorem finishTransmits_completes {s : State} (h : s.transmitter = .completes) :
    finishTransmits s = .next (s.respond none) := by
  simp [finishTransmits, h]

@[simp] theorem finishTransmits_neverCompletes {s : State} (h : s.transmitter = .neverCompletes) :
    finishTransmits s = .fault .transmitterNeverCompletes := by
  simp [finishTransmits, h]

/-- If it answers next, the transmitter completes and the command has responded `OK`. -/
theorem finishTransmits_next {s t : State} (h : finishTransmits s = .next t) :
    s.transmitter = .completes ∧ t = s.respond none := by
  cases hs : s.transmitter with
  | completes => rw [finishTransmits_completes hs] at h; cases h; exact ⟨rfl, rfl⟩
  | neverCompletes => rw [finishTransmits_neverCompletes hs] at h; cases h

/-! ### Store and transmit (R154, R155) -/

section storeAndTransmit
variable (i : Nat) (t : List Byte) (r : ReadyStrip) (s : State)

@[simp] theorem storeAndTransmit_params : (storeAndTransmit i t r s).params = s.params := rfl
@[simp] theorem storeAndTransmit_brightness : (storeAndTransmit i t r s).brightness = s.brightness := rfl
@[simp] theorem storeAndTransmit_strip : (storeAndTransmit i t r s).strip = .ready (writePixel i t r) := rfl
@[simp] theorem storeAndTransmit_inputs : (storeAndTransmit i t r s).inputs = s.inputs := rfl
@[simp] theorem storeAndTransmit_responses : (storeAndTransmit i t r s).responses = s.responses := rfl
@[simp] theorem storeAndTransmit_trace :
    (storeAndTransmit i t r s).trace = s.trace ++ [transmitEvent (writePixel i t r)] := rfl
@[simp] theorem storeAndTransmit_transmitter : (storeAndTransmit i t r s).transmitter = s.transmitter := rfl
end storeAndTransmit

/-! ### `SHOW_COLOR`'s loop (R157) -/

/-- The strip with `k` pixels written from pixel `i` upward. -/
def fillPixels (t : List Byte) : (k i : Nat) → ReadyStrip → ReadyStrip
  | 0, _, r => r
  | k + 1, i, r => fillPixels t k (i + 1) (writePixel i t r)

/-- The events of the loop: one transmit after each pixel, and one more. -/
def fillEvents (t : List Byte) : (k i : Nat) → ReadyStrip → List Event
  | 0, _, r => [transmitEvent r]
  | k + 1, i, r => transmitEvent (writePixel i t r) :: fillEvents t k (i + 1) (writePixel i t r)

@[simp] theorem fillPixels_pixelCount (t : List Byte) (k i : Nat) (r : ReadyStrip) :
    (fillPixels t k i r).pixelCount = r.pixelCount := by
  induction k generalizing i r with
  | zero => rfl
  | succ k ih => simp [fillPixels, ih]

@[simp] theorem fillPixels_pin (t : List Byte) (k i : Nat) (r : ReadyStrip) :
    (fillPixels t k i r).pin = r.pin := by
  induction k generalizing i r with
  | zero => rfl
  | succ k ih => simp [fillPixels, ih]

/-- Everything the loop does: the strip filled, the events appended, nothing else. -/
theorem fillAndTransmit_eq (t : List Byte) (k i : Nat) (r : ReadyStrip) (s : State) (h : s.strip = .ready r) :
    fillAndTransmit t k i r s =
      { s with strip := .ready (fillPixels t k i r), trace := s.trace ++ fillEvents t k i r } := by
  induction k generalizing i r s with
  | zero => cases s; simp_all [fillAndTransmit, fillPixels, fillEvents, State.emit]
  | succ k ih =>
    rw [fillAndTransmit, ih (i + 1) (writePixel i t r) _ rfl]
    simp [fillPixels, fillEvents, storeAndTransmit, State.emit, State.setStrip]

theorem fillPixels_wf (t : List Byte) (k i : Nat) {r : ReadyStrip} (h : Memory.wf r.buf) :
    Memory.wf (fillPixels t k i r).buf := by
  induction k generalizing i r with
  | zero => exact h
  | succ k ih => exact ih (i + 1) (memWrite_wf h _ _)

theorem fillPixels_within (t : List Byte) (ht : t.length = 3) (k i : Nat) {r : ReadyStrip} {n : Nat}
    (h : Memory.within r.buf n) (hn : 3 * (i + k) ≤ n) : Memory.within (fillPixels t k i r).buf n := by
  induction k generalizing i r with
  | zero => exact h
  | succ k ih =>
    refine ih (i + 1) (memWrite_within h t ?_) (by omega)
    simp only [pixelOffset, Config.bytesPerPixel, ht]; omega

/-- The bytes after the loop: the triplet in every pixel from `i` to `i + k - 1`, every other byte unchanged. -/
theorem read_fillPixels (t : List Byte) (ht : t.length = 3) (k i : Nat) {r : ReadyStrip} (h : Memory.wf r.buf)
    (a : Nat) :
    Memory.read (fillPixels t k i r).buf a =
      if 3 * i ≤ a ∧ a < 3 * (i + k) then t.getD (a % 3) 0 else Memory.read r.buf a := by
  induction k generalizing i r with
  | zero => simp only [fillPixels, Nat.add_zero]; rw [if_neg (by omega)]
  | succ k ih =>
    rw [fillPixels, ih (i + 1) (memWrite_wf h _ _), writePixel_buf, read_memWrite h]
    simp only [pixelOffset, Config.bytesPerPixel, ht]
    by_cases h1 : 3 * i ≤ a ∧ a < 3 * i + 3
    · rw [if_neg (by omega), if_pos h1, if_pos (by omega)]
      congr 1; omega
    · by_cases h2 : 3 * (i + 1) ≤ a ∧ a < 3 * (i + 1 + k)
      · rw [if_pos h2, if_pos (by omega)]
      · rw [if_neg h2, if_neg h1, if_neg (by omega)]

theorem fillPixels_succ (t : List Byte) (k i : Nat) (r : ReadyStrip) :
    fillPixels t (k + 1) i r = writePixel (i + k) t (fillPixels t k i r) := by
  induction k generalizing i r with
  | zero => rfl
  | succ k ih =>
    rw [fillPixels, ih (i + 1), fillPixels]
    congr 1; omega

/-- The loop's events one by one: the `k`-th carries the strip with `k` pixels written (R158). -/
theorem fillEvents_eq_map (t : List Byte) (k i : Nat) (r : ReadyStrip) :
    fillEvents t k i r =
      ((List.range k).map fun j => transmitEvent (fillPixels t (j + 1) i r)) ++ [transmitEvent (fillPixels t k i r)] := by
  induction k generalizing i r with
  | zero => rfl
  | succ k ih =>
    rw [fillEvents, ih (i + 1), List.range_succ_eq_map, List.map_cons, List.map_map, List.cons_append]
    rfl

@[simp] theorem fillEvents_length (t : List Byte) (k i : Nat) (r : ReadyStrip) :
    (fillEvents t k i r).length = k + 1 := by
  simp [fillEvents_eq_map]

/-! ### The host's inputs -/

theorem takeInput_nil {s : State} (h : s.inputs = []) : takeInput s = none := by simp [takeInput, h]

theorem takeInput_cons {s : State} {x : HostInput} {rest : List HostInput} (h : s.inputs = x :: rest) :
    takeInput s = some (x, s.setInputs rest) := by simp [takeInput, h]

end Sys2Proof.Machine
end

