-- ==== Sys2Proof/Laws/Exec.lean ====
section
/-! SUPPORT. Laws/Exec.lean: one inversion lemma per meaning: what holds of a next state it answers. -/

namespace Sys2Proof.Machine

/-- `INIT` either raises `CAPACITY` or replaces the strip (R150). -/
theorem execInit_cases {pin length : Word} {s t : State} (h : execInit pin length s = .next t) :
    (s.params.maxPixels < lengthOperand length ∧ t = s.raise .capacity) ∨
      (lengthOperand length ≤ s.params.maxPixels ∧
        t = { s with
              strip := .ready (freshStrip pin (lengthOperand length))
              brightness := brightnessAfterInit s
              trace := s.trace ++ [.pinWrite pin .low]
              responses := s.responses ++ [⟨.ok, none⟩] }) := by
  simp only [execInit, capacityExceeded, decide_eq_true_eq] at h
  split at h
  · cases h; exact .inl ⟨by assumption, rfl⟩
  · cases h; exact .inr ⟨by omega, rfl⟩

/-- `SET_BRIGHTNESS` either raises `UNINITIALIZED_USE` or writes `BRIGHTNESS` (R153). -/
theorem execSetBrightness_cases {level : Word} {s t : State} (h : execSetBrightness level s = .next t) :
    (s.strip = .uninitialized ∧ t = s.raise .uninitializedUse) ∨
      ∃ r, s.strip = .ready r ∧
        t = { s with brightness := low8 level, responses := s.responses ++ [⟨.ok, none⟩] } := by
  rcases whenReady_cases s fun _ => .next ((s.setBrightness (low8 level)).respond none) with ⟨hs, e⟩ | ⟨r, hs, e⟩
  · rw [execSetBrightness, e] at h; cases h; exact .inl ⟨hs, rfl⟩
  · rw [execSetBrightness, e] at h; cases h; exact .inr ⟨r, hs, rfl⟩

/-- `SET_PIXEL` raises one of its two faults, or stores the triplet and transmits (R154). -/
theorem execSetPixel_cases {index color : Word} {s t : State} (h : execSetPixel index color s = .next t) :
    (s.strip = .uninitialized ∧ t = s.raise .uninitializedUse) ∨
    ∃ r, s.strip = .ready r ∧
      ((indexInRange index r.pixelCount = false ∧ t = s.raise .outOfRange) ∨
       (indexInRange index r.pixelCount = true ∧ s.transmitter = .completes ∧
        t = (storeAndTransmit (indexOperand index) (scaleTriplet color s.brightness) r s).respond none)) := by
  cases hs : s.strip with
  | uninitialized => rw [execSetPixel, whenReady_uninitialized hs] at h; cases h; exact .inl ⟨rfl, rfl⟩
  | ready r =>
    rw [execSetPixel, whenReady_ready hs] at h
    refine .inr ⟨r, rfl, ?_⟩
    split at h
    · obtain ⟨htx, ht⟩ := finishTransmits_next h
      exact .inr ⟨by assumption, htx, ht⟩
    · cases h; exact .inl ⟨by simp_all, rfl⟩

/-- `SHOW_COLOR` raises `UNINITIALIZED_USE`, or fills the strip and transmits (R157). -/
theorem execShowColor_cases {color : Word} {s t : State} (h : execShowColor color s = .next t) :
    (s.strip = .uninitialized ∧ t = s.raise .uninitializedUse) ∨
    ∃ r, s.strip = .ready r ∧ s.transmitter = .completes ∧
      t = { s with
            strip := .ready (fillPixels (scaleTriplet color s.brightness) r.pixelCount.toNat 0 r)
            trace := s.trace ++ fillEvents (scaleTriplet color s.brightness) r.pixelCount.toNat 0 r
            responses := s.responses ++ [⟨.ok, none⟩] } := by
  cases hs : s.strip with
  | uninitialized => rw [execShowColor, whenReady_uninitialized hs] at h; cases h; exact .inl ⟨rfl, rfl⟩
  | ready r =>
    rw [execShowColor, whenReady_ready hs, fillAndTransmit_eq _ _ _ _ _ hs] at h
    obtain ⟨htx, ht⟩ := finishTransmits_next h
    exact .inr ⟨r, rfl, htx, ht⟩

/-- `SHOW` raises `UNINITIALIZED_USE`, or transmits (R159). -/
theorem execShow_cases {s t : State} (h : execShow s = .next t) :
    (s.strip = .uninitialized ∧ t = s.raise .uninitializedUse) ∨
    ∃ r, s.strip = .ready r ∧ s.transmitter = .completes ∧ t = (s.emit (transmitEvent r)).respond none := by
  cases hs : s.strip with
  | uninitialized => rw [execShow, whenReady_uninitialized hs] at h; cases h; exact .inl ⟨rfl, rfl⟩
  | ready r =>
    rw [execShow, whenReady_ready hs] at h
    obtain ⟨htx, ht⟩ := finishTransmits_next h
    exact .inr ⟨r, rfl, htx, ht⟩

/-- Everything a command can do, guards included: the command and the next state, one constructor per way to
complete. -/
inductive Effect (s : State) : Instr → State → Prop where
  /-- A codec command's result (R111 to R114). -/
  | result (i : Instr) (v : Word) (hi : isCodec i = true) : Effect s i (s.respond (some v))
  /-- R181. -/
  | uninitialized (i : Instr) (hi : needsReady i = true) (hs : s.strip = .uninitialized) :
      Effect s i (s.raise .uninitializedUse)
  /-- R183. -/
  | capacity (pin length : Word) (h : s.params.maxPixels < lengthOperand length) :
      Effect s (.init pin length) (s.raise .capacity)
  /-- R150. -/
  | init (pin length : Word) (h : lengthOperand length ≤ s.params.maxPixels) :
      Effect s (.init pin length)
        { s with
          strip := .ready (freshStrip pin (lengthOperand length))
          brightness := brightnessAfterInit s
          trace := s.trace ++ [.pinWrite pin .low]
          responses := s.responses ++ [⟨.ok, none⟩] }
  /-- R153. -/
  | brightness (level : Word) (r : ReadyStrip) (hs : s.strip = .ready r) :
      Effect s (.setBrightness level)
        { s with brightness := low8 level, responses := s.responses ++ [⟨.ok, none⟩] }
  /-- R182. -/
  | outOfRange (index color : Word) (r : ReadyStrip) (hs : s.strip = .ready r)
      (hi : indexInRange index r.pixelCount = false) : Effect s (.setPixel index color) (s.raise .outOfRange)
  /-- R154, R155. -/
  | pixel (index color : Word) (r : ReadyStrip) (hs : s.strip = .ready r)
      (hi : indexInRange index r.pixelCount = true) (htx : s.transmitter = .completes) :
      Effect s (.setPixel index color)
        ((storeAndTransmit (indexOperand index) (scaleTriplet color s.brightness) r s).respond none)
  /-- R157. -/
  | fill (color : Word) (r : ReadyStrip) (hs : s.strip = .ready r) (htx : s.transmitter = .completes) :
      Effect s (.showColor color)
        { s with
          strip := .ready (fillPixels (scaleTriplet color s.brightness) r.pixelCount.toNat 0 r)
          trace := s.trace ++ fillEvents (scaleTriplet color s.brightness) r.pixelCount.toNat 0 r
          responses := s.responses ++ [⟨.ok, none⟩] }
  /-- R159. -/
  | flush (r : ReadyStrip) (hs : s.strip = .ready r) (htx : s.transmitter = .completes) :
      Effect s .showStrip ((s.emit (transmitEvent r)).respond none)

/-- The inversion lemma of `exec`: a next state is one of the effects above. -/
theorem exec_effect {i : Instr} {s t : State} (h : exec i s = .next t) : Effect s i t := by
  cases i with
  | pack r g b => cases h; exact .result _ _ rfl
  | unpackR color => cases h; exact .result _ _ rfl
  | unpackG color => cases h; exact .result _ _ rfl
  | unpackB color => cases h; exact .result _ _ rfl
  | init pin length =>
    rcases execInit_cases h with ⟨hc, rfl⟩ | ⟨hc, rfl⟩
    · exact .capacity pin length hc
    · exact .init pin length hc
  | setBrightness level =>
    rcases execSetBrightness_cases h with ⟨hs, rfl⟩ | ⟨r, hs, rfl⟩
    · exact .uninitialized _ rfl hs
    · exact .brightness level r hs
  | setPixel index color =>
    rcases execSetPixel_cases h with ⟨hs, rfl⟩ | ⟨r, hs, ⟨hi, rfl⟩ | ⟨hi, htx, rfl⟩⟩
    · exact .uninitialized _ rfl hs
    · exact .outOfRange index color r hs hi
    · exact .pixel index color r hs hi htx
  | showColor color =>
    rcases execShowColor_cases h with ⟨hs, rfl⟩ | ⟨r, hs, htx, rfl⟩
    · exact .uninitialized _ rfl hs
    · exact .fill color r hs htx
  | showStrip =>
    rcases execShow_cases h with ⟨hs, rfl⟩ | ⟨r, hs, htx, rfl⟩
    · exact .uninitialized _ rfl hs
    · exact .flush r hs htx

/-! ### One step -/

theorem step_idle {s : State} (h : s.inputs = []) : step s = .next s := by
  simp [step, takeInput_nil h]

theorem step_reset {s : State} {rest : List HostInput} (h : s.inputs = .reset :: rest) :
    step s = .next (s.setInputs rest).resetInput := by
  simp [step, takeInput_cons h]

theorem step_word {s : State} {w : CmdWord} {rest : List HostInput} (h : s.inputs = .command w :: rest) :
    step s = runWord w (s.setInputs rest) := by
  simp [step, takeInput_cons h]

theorem runWord_command {w : CmdWord} {i : Instr} (h : decode w = .command i) (s : State) :
    runWord w s = exec i s := by
  simp [runWord, h]

theorem runWord_reserved {w : CmdWord} {op : Byte} (h : decode w = .reservedOpcode op) (s : State) :
    runWord w s = .next (s.raise .illegalCommand) := by
  simp [runWord, h]

/-- The inversion lemma of a step that takes a command word. -/
theorem step_word_next {s t : State} {w : CmdWord} {rest : List HostInput} (h : s.inputs = .command w :: rest)
    (ht : step s = .next t) :
    (∃ i, decode w = .command i ∧ exec i (s.setInputs rest) = .next t) ∨
      (∃ op, decode w = .reservedOpcode op ∧ t = (s.setInputs rest).raise .illegalCommand) := by
  rw [step_word h] at ht
  cases hd : decode w with
  | command i => rw [runWord_command hd] at ht; exact .inl ⟨i, rfl, ht⟩
  | reservedOpcode op => rw [runWord_reserved hd] at ht; cases ht; exact .inr ⟨op, rfl, rfl⟩

end Sys2Proof.Machine
end

