-- ==== Sys2Proof/Laws/PerInstr.lean ====
section
/-! SUPPORT. Laws/PerInstr.lean: statements about every command as syntax, one lemma per constructor. -/

namespace Sys2Proof.Laws.EncodedFields

/-- The command is well formed, and the four fields of its word are its opcode and its operands (R80, R81, R84). -/
def Statement (i : Instr) : Prop :=
  i.wf = true ∧ opField (encode i) = i.mnemonic.code ∧ fieldA (encode i) = i.operandA ∧
    fieldB (encode i) = i.operandB ∧ fieldC (encode i) = i.operandC

theorem pack (r g b : Word) : Statement (.pack r g b) := by simp [Statement, encode, Instr.wf]
theorem unpackR (color : Word) : Statement (.unpackR color) := by simp [Statement, encode, Instr.wf]
theorem unpackG (color : Word) : Statement (.unpackG color) := by simp [Statement, encode, Instr.wf]
theorem unpackB (color : Word) : Statement (.unpackB color) := by simp [Statement, encode, Instr.wf]
theorem init (pin length : Word) : Statement (.init pin length) := by simp [Statement, encode, Instr.wf]
theorem setBrightness (level : Word) : Statement (.setBrightness level) := by simp [Statement, encode, Instr.wf]
theorem setPixel (index color : Word) : Statement (.setPixel index color) := by simp [Statement, encode, Instr.wf]
theorem showColor (color : Word) : Statement (.showColor color) := by simp [Statement, encode, Instr.wf]
theorem showStrip : Statement .showStrip := by simp [Statement, encode, Instr.wf]

end Sys2Proof.Laws.EncodedFields
end

