-- ==== Sys2Proof/Laws/Safety.lean ====
section
/-! SUPPORT. Laws/Safety.lean: the small lemmas of Safety.lean's definitions. -/

namespace Sys2Proof.Machine

/-- What the invariant says of a `Ready` strip. -/
theorem Strip.wf_ready_iff (p : Params) (r : ReadyStrip) :
    Strip.wf p (.ready r) = true ↔
      r.pixelCount.toNat ≤ p.maxPixels ∧ r.pixelCount.toNat ≤ 2 ^ 31 - 1 ∧ Memory.wf r.buf ∧
        Memory.within r.buf (3 * r.pixelCount.toNat) := by
  simp only [Strip.wf, Bool.and_eq_true, decide_eq_true_eq, and_assoc]
  rfl

@[simp] theorem Strip.wf_uninitialized (p : Params) : Strip.wf p .uninitialized = true := rfl

@[simp] theorem Event.isTransmit_transmit (bytes : List Byte) (pin : Word) :
    (Event.transmit bytes pin).isTransmit = true := rfl

@[simp] theorem Event.isTransmit_pinWrite (pin : Word) (level : Level) :
    (Event.pinWrite pin level).isTransmit = false := rfl

@[simp] theorem transmitEvent_isTransmit (r : ReadyStrip) : (transmitEvent r).isTransmit = true := rfl

/-- A transmit of a strip within `MAX_PIXELS` is a well-formed event. -/
theorem transmitEvent_wf {p : Params} {r : ReadyStrip} (h : r.pixelCount.toNat ≤ p.maxPixels) :
    (transmitEvent r).wf p = true := by
  simp only [transmitEvent, Event.wf, wholeBuffer_length, Bool.and_eq_true, decide_eq_true_eq]
  omega

/-- Two lists of commands, one after the other. -/
theorem runCommands_append {xs ys : List Instr} {s t : State} (h : runCommands xs s = .next t) :
    runCommands (xs ++ ys) s = runCommands ys t := by
  induction xs generalizing s with
  | nil => cases h; rfl
  | cons x xs ih =>
    simp only [runCommands, List.cons_append] at h ⊢
    split at h
    · exact ih h
    · cases h
    · cases h

/-- States that hold the same differ in the inputs and the observation only. -/
theorem eq_update_of_sameCore {s s' : State} (h : sameCore s s') :
    s' = { s with inputs := s'.inputs, responses := s'.responses, trace := s'.trace } := by
  obtain ⟨h1, h2, h3, h4⟩ := h
  cases s; cases s'; simp_all

end Sys2Proof.Machine
end

