-- ==== Sys2Proof/Tests/Slice0.lean ====
section
/-! SUPPORT. Tests/Slice0.lean: the model's own tests. Expected results are the rows of 95_test_vectors.md (V1 to V8, P1 to
P6, named in each comment) or words written out by hand from 30_encoding.md rules R80 and R81; and, for every statement
of Certificates/Slice0/Obligations.lean that has hypotheses, a state and operands that meet all of them. -/

namespace Sys2Proof.Tests

open Sys2Proof.Machine

/-! ### Small states and what is read from an outcome -/

/-- A state in `Ready` with a strip of `n` pixels on pin `pin`, its brightness and its listed bytes. -/
def readyWith (n : BitVec 32) (pin : Word) (br : Byte) (buf : Memory) : State :=
  { State.reset with brightness := br, strip := .ready { pixelCount := n, pin := pin, buf := buf } }

/-- The start of 95_test_vectors.md V8: two pixels, brightness 255, pin 3, all bytes zero. -/
def ready2 : State := readyWith 2 3 255 []

/-- The reset state with the host's next inputs. -/
def presented (inputs : List HostInput) : State := { State.reset with inputs := inputs }

def traceOf : Result → List Event
  | .next t => t.trace
  | .fault _ | .refused _ => []

def responsesOf : Result → List Response
  | .next t => t.responses
  | .fault _ | .refused _ => []

def brightnessOf : Result → Option Byte
  | .next t => some t.brightness
  | .fault _ | .refused _ => none

/-- The buffer's bytes, none where there is no buffer. -/
def bytesOf : Result → Option (List Byte)
  | .next t =>
    match t.strip with
    | .ready r => some (wholeBuffer r)
    | .uninitialized => none
  | .fault _ | .refused _ => none

/-! ### Well-formedness: an ill-formed term for each check -/

theorem test_wf_accepts_boundaries :
    AsmCommand.wf ⟨.INIT, [.number (-2147483648), .number 4294967295]⟩ = true := by decide
theorem test_wf_refuses_too_large : AsmCommand.wf ⟨.UNPACK_R, [.number 4294967296]⟩ = false := by decide
theorem test_wf_refuses_too_small : AsmCommand.wf ⟨.UNPACK_R, [.number (-2147483649)]⟩ = false := by decide
theorem test_wf_refuses_wrong_count : AsmCommand.wf ⟨.SET_PIXEL, [.color .WHITE]⟩ = false := by decide

/-! ### Decoding: one word of every command, from R80, R81 and the examples of R111 to R159 -/

theorem test_decode_pack : decode 0x01000000AA000000BB000000CC = .command (.pack 0xAA 0xBB 0xCC) := by decide
theorem test_decode_unpackR : decode 0x0200AABBCC0000000000000000 = .command (.unpackR 0xAABBCC) := by decide
theorem test_decode_unpackG : decode 0x0300AABBCC0000000000000000 = .command (.unpackG 0xAABBCC) := by decide
theorem test_decode_unpackB : decode 0x0400AABBCC0000000000000000 = .command (.unpackB 0xAABBCC) := by decide
theorem test_decode_init : decode 0x10000000070000000300000000 = .command (.init 7 3) := by decide
theorem test_decode_setBrightness : decode 0x11000000800000000000000000 = .command (.setBrightness 128) := by decide
theorem test_decode_setPixel : decode 0x120000000000AABBCC00000000 = .command (.setPixel 0 0xAABBCC) := by decide
theorem test_decode_showColor : decode 0x1300FF00000000000000000000 = .command (.showColor 0xFF0000) := by decide
theorem test_decode_show : decode 0x14000000000000000000000000 = .command .showStrip := by decide
/-- V2: the reserved neighbours of the assigned opcodes, and the all-zero word. -/
theorem test_decode_reserved :
    [(0x00000000000000000000000000 : CmdWord), 0x05111111112222222233333333, 0x0F111111112222222233333333,
      0x15111111112222222233333333, 0xFF111111112222222233333333].map decode =
    [.reservedOpcode 0x00, .reservedOpcode 0x05, .reservedOpcode 0x0F, .reservedOpcode 0x15, .reservedOpcode 0xFF] := by
  decide
/-- The rows `SET_PIXEL` and `SHOW` of opcode_table.json, by their `match`. -/
theorem test_decodeTableWord :
    decodeTableWord 104 0x12000000000000000000000000 = some (.setPixel 0 0) ∧
      decodeTableWord 104 0x14000000000000000000000000 = some .showStrip := by decide

/-! ### Assembler: rows of V1, V7, P3 -/

theorem test_assemble_lines :
    assembleLine "PACK 0x100, 0x1FF, 0x80000001".toList = .word 0x0100000100000001FF80000001 ∧
    assembleLine "  INIT 5, -4 ; empty strip".toList = .word 0x1000000005FFFFFFFC00000000 ∧
    assembleLine "SET_PIXEL 1, VIOLET".toList = .word 0x1200000001008A2BE200000000 ∧
    assembleLine "SHOW".toList = .word 0x14000000000000000000000000 ∧
    assembleLine "; a comment".toList = .noCommand := by decide
theorem test_assemble_rejects :
    assembleLine "PACK 1, 2".toList = .rejected ∧ assembleLine "show".toList = .rejected ∧
    assembleLine "UNPACK_R 0x100000000".toList = .rejected ∧ assembleLine "UNPACK_R 12A".toList = .rejected := by decide

/-! ### Codec: V1 -/

theorem test_pack_masks : responsesOf (exec (.pack 0x100 0x1FF 0x80000001) State.reset) = [⟨.ok, some 0x0000FF01⟩] := by
  decide
theorem test_pack_order : responsesOf (exec (.pack 0x1234 0x5678 0x9ABC) ready2) = [⟨.ok, some 0x003478BC⟩] := by decide
theorem test_unpackR : responsesOf (exec (.unpackR 0x12FF0000) ready2) = [⟨.ok, some 0xFF⟩] := by decide
theorem test_unpackG : responsesOf (exec (.unpackG 0x8A2BE2) State.reset) = [⟨.ok, some 0x2B⟩] := by decide
theorem test_unpackB : responsesOf (exec (.unpackB 0x8A2BE2) State.reset) = [⟨.ok, some 0xE2⟩] := by decide

/-! ### Scaler: V3, V4, V5 -/

/-- V4: the twelve pairs where a floating-point grouping is one too low. -/
theorem test_scale8_float_traps :
    ([(51, 155), (75, 187), (85, 147), (85, 171), (102, 155), (150, 187), (153, 155), (153, 195), (165, 187), (170, 147),
      (170, 171), (204, 155)] : List (Byte × Byte)).map (fun p => scale8 p.1 p.2) =
    [31, 55, 49, 57, 62, 110, 93, 117, 121, 98, 114, 124] := by decide
theorem test_scale8_truncates : scale8 1 254 = 0 ∧ scale8 254 254 = 253 ∧ scale8 3 85 = 1 ∧ scale8 165 128 = 82 := by
  decide
theorem test_scaleTriplet : scaleTriplet 0x00AA5566 147 = [0x31, 0x62, 0x3A] ∧
    scaleTriplet 0xFFAABBCC 255 = [0xBB, 0xAA, 0xCC] := by decide

/-! ### Strip Buffer: V6 to V8, P1 to P6 -/

/-- V7: `INIT 5, -4` from reset. -/
theorem test_init_negative_length :
    bytesOf (exec (.init 5 0xFFFFFFFC) State.reset) = some [] ∧
      traceOf (exec (.init 5 0xFFFFFFFC) State.reset) = [.pinWrite 5 .low] := by decide
/-- V7: `INIT 5, 9` with `MAX_PIXELS = 8`. -/
theorem test_init_capacity :
    responsesOf (exec (.init 5 9) { State.reset with params := ⟨8, false⟩ }) = [⟨.capacity, none⟩] ∧
      traceOf (exec (.init 5 9) { State.reset with params := ⟨8, false⟩ }) = [] := by decide
/-- V6. -/
theorem test_setBrightness_masks : brightnessOf (exec (.setBrightness 0x12345678) ready2) = some 0x78 := by decide
theorem test_setBrightness_uninitialized :
    responsesOf (exec (.setBrightness 5) State.reset) = [⟨.uninitializedUse, none⟩] := by decide
/-- P3, command 4: violet at brightness 51 on pixel 1, pixel 0 kept. -/
theorem test_setPixel_scales :
    traceOf (exec (.setPixel 1 0x8A2BE2) (readyWith 2 1 51 [(0, 0x52), (1, 0x80)])) =
      [.transmit [0x52, 0x80, 0x00, 0x08, 0x1B, 0x2D] 1] := by decide
/-- V8: index -1. -/
theorem test_setPixel_negative_index :
    responsesOf (exec (.setPixel 0xFFFFFFFF 0xFFFFFF) ready2) = [⟨.outOfRange, none⟩] ∧
      traceOf (exec (.setPixel 0xFFFFFFFF 0xFFFFFF) ready2) = [] := by decide
/-- P1, command 1. -/
theorem test_showColor_events :
    traceOf (exec (.showColor 0xFF0000) (readyWith 3 7 255 [])) =
      [.transmit [0x00, 0xFF, 0x00, 0x00, 0x00, 0x00, 0x00, 0x00, 0x00] 7,
       .transmit [0x00, 0xFF, 0x00, 0x00, 0xFF, 0x00, 0x00, 0x00, 0x00] 7,
       .transmit [0x00, 0xFF, 0x00, 0x00, 0xFF, 0x00, 0x00, 0xFF, 0x00] 7,
       .transmit [0x00, 0xFF, 0x00, 0x00, 0xFF, 0x00, 0x00, 0xFF, 0x00] 7] := by decide
/-- P6, command 1: the empty strip. -/
theorem test_showColor_empty : traceOf (exec (.showColor 0xFFFFFF) (readyWith 0 5 255 [])) = [.transmit [] 5] := by decide
/-- R159's example, at a brightness that plays no part. -/
theorem test_show : traceOf (exec .showStrip (readyWith 1 7 0 [(0, 0xBB), (1, 0xAA), (2, 0xCC)])) =
    [.transmit [0xBB, 0xAA, 0xCC] 7] := by decide

/-! ### Steps -/

/-- V2: `14 00000001 00000002 00000003` in `Uninitialized`. -/
theorem test_step_show_uninitialized :
    responsesOf (step (State.reset.withFetchWord 104 0x14000000010000000200000003)) = [⟨.uninitializedUse, none⟩] := by
  decide
theorem test_step_illegal :
    responsesOf (step (presented [.command 0x20111111112222222233333333])) = [⟨.illegalCommand, none⟩] := by decide
theorem test_step_reset : bytesOf (step { ready2 with inputs := [.reset] }) = none ∧
    brightnessOf (step { readyWith 2 3 7 [] with inputs := [.reset] }) = some 255 := by decide

/-! ### Witnesses: for each obligation with hypotheses, states and operands that meet them together, one for each
clause, at the boundaries of their ranges. -/

/-- A strip of at most eight pixels, so that `CAPACITY` can occur (V7). -/
def small : State := { State.reset with params := ⟨8, false⟩ }

/-- `ready2` with a transmitter that hangs (U8). -/
def hung : State := { ready2 with transmitter := .neverCompletes }

/-- Does the machine go on? `completes r = true` says that `r` is `.next t` for some `t`. -/
def completes : Result → Bool
  | .next _ => true
  | .fault _ | .refused _ => false

theorem invariant_ready2 : Invariant ready2 :=
  ⟨by decide, (by decide), by decide, by decide⟩

theorem witness_EncodeOfDecodedKeepsUsedBits :
    decode 0x0200AABBCCDEADBEEF12345678 = .command (.unpackR 0xAABBCC) ∧
    (0x0200AABBCCDEADBEEF12345678 : CmdWord) &&& usedBits (Instr.unpackR 0xAABBCC).mnemonic =
      0x0200AABBCC0000000000000000 &&& usedBits (Instr.unpackR 0xAABBCC).mnemonic := by decide

theorem witness_AssemblerPlacesOperands_values :
    ((0 : Int) ≤ 0 ∧ (0 : Int) ≤ 2 ^ 32 - 1) ∧ ((0 : Int) ≤ 4294967295 ∧ (4294967295 : Int) ≤ 2 ^ 32 - 1) ∧
    (-(2 ^ 31) ≤ (-2147483648 : Int) ∧ (-2147483648 : Int) ≤ -1) ∧ (-(2 ^ 31) ≤ (-1 : Int) ∧ (-1 : Int) ≤ -1) := by decide
theorem witness_AssemblerPlacesOperands_rejected :
    AsmOperand.number 4294967296 ∈ (AsmCommand.mk .UNPACK_R [.number 4294967296]).operands ∧
      (2 ^ 32 - 1 : Int) < 4294967296 ∧
    AsmOperand.number (-2147483649) ∈ (AsmCommand.mk .UNPACK_R [.number (-2147483649)]).operands ∧
      (-2147483649 : Int) < -(2 ^ 31) := by decide
theorem witness_AssemblerPlacesOperands_assembled :
    (AsmCommand.mk .SET_PIXEL [.number (-2147483648), .color .WHITE]).operands.length = Mnemonic.SET_PIXEL.arity ∧
    ∀ v : Int, AsmOperand.number v ∈ (AsmCommand.mk .SET_PIXEL [.number (-2147483648), .color .WHITE]).operands →
      -(2 ^ 31) ≤ v ∧ v ≤ 2 ^ 32 - 1 := by
  refine ⟨rfl, fun v h => ?_⟩
  have : v = -2147483648 := by simpa using h
  omega
theorem witness_AssembledFormsEncodeAsTabled :
    (AsmOperand.number (-2147483648)).wf = true ∧ (AsmOperand.number 4294967295).wf = true ∧
      (AsmOperand.color .WHITE).wf = true := by decide

theorem witness_StepRunsTheDecodedCommand :
    (presented [.command 0x14000000010000000200000003, .reset]).inputs =
      .command 0x14000000010000000200000003 :: [.reset] ∧
    decode 0x14000000010000000200000003 = .command .showStrip ∧
    decodeTableWord 104 0x14000000010000000200000003 = some .showStrip := by decide
/-- The neighbours of the assigned opcodes, and a command that completes, for the second clause. -/
theorem witness_ReservedOpcodeRaisesIllegalCommand :
    (presented [.command 0x15111111112222222233333333]).inputs = .command 0x15111111112222222233333333 :: [] ∧
    (0x15111111112222222233333333 : CmdWord).extractLsb' 96 8 ∉ assignedOpcodes ∧
    (0x00111111112222222233333333 : CmdWord).extractLsb' 96 8 ∉ assignedOpcodes ∧
    completes (exec (.pack 1 2 3) State.reset) = true := by decide
theorem witness_ResetInputGivesTheResetState : { ready2 with inputs := [.reset] }.inputs = .reset :: [] := rfl
theorem witness_WaitsForACommand : ready2.inputs = [] := rfl

theorem witness_PackResult : (0x01000000AA000000BB000000CC : CmdWord).extractLsb' 96 8 = 0x01 := by decide
theorem witness_UnpackResults :
    (0x0200AABBCC0000000000000000 : CmdWord).extractLsb' 96 8 = 0x02 ∧
    (0x0300AABBCC0000000000000000 : CmdWord).extractLsb' 96 8 = 0x03 ∧
    (0x0400AABBCC0000000000000000 : CmdWord).extractLsb' 96 8 = 0x04 := by decide
theorem witness_PackKeepsLowBytes :
    (261 : Word) &&& 0xFF = 5 &&& 0xFF ∧ (0xFFFFFFFF : Word) &&& 0xFF = 0xFF &&& 0xFF ∧
      (256 : Word) &&& 0xFF = 0 &&& 0xFF := by decide

theorem witness_ZeroBrightnessStoresZero :
    (readyWith 2 3 0 [(3, 1)]).strip = .ready ⟨2, 3, [(3, 1)]⟩ ∧ Memory.wf [(3, 1)] ∧
    (readyWith 2 3 0 [(3, 1)]).brightness = 0 ∧ 0 ≤ (1 : Word).toInt ∧ (1 : Word).toInt < (2 : BitVec 32).toNat ∧
    (readyWith 2 3 0 [(3, 1)]).transmitter = .completes := by decide
theorem witness_ScalerLaws :
    (0 : Byte) ≤ 255 ∧ (254 : Byte) ≤ 254 ∧ ∀ c : Nat, c ≤ 255 → c * 255 / 255 = c :=
  ⟨by decide, by decide, fun c _ => by omega⟩
theorem witness_ShiftAddScalerAgrees : (65534 : Nat) ≤ 65534 := by decide
theorem witness_TripletIsScaledChannelsInWireOrder :
    (0xFFAABBCC : Word) &&& 0xFFFFFF = 0x00AABBCC &&& 0xFFFFFF := by decide

/-- The largest length accepted, the first refused, and a negative one; both states. -/
theorem witness_InitReplacesTheStrip :
    (0x10000000070000000300000000 : CmdWord).extractLsb' 96 8 = 0x10 ∧
    max (8 : Word).toInt 0 ≤ small.params.maxPixels ∧
    max (0xFFFFFFFC : Word).toInt 0 ≤ ready2.params.maxPixels ∧
    (small.params.maxPixels : Int) < max (9 : Word).toInt 0 := by decide
theorem witness_CapacityRaisedOnlyByInit :
    completes (exec (.init 5 8) small) = true ∧
    exec (.init 5 9) small = .next { small with responses := small.responses ++ [⟨.capacity, none⟩] } :=
  ⟨by decide, rfl⟩
theorem witness_InitBrightnessByParameter :
    (completes (exec (.init 5 1) ready2) = true ∧ ready2.params.initResetsBrightness = false) ∧
    (completes (exec (.init 5 8) { ready2 with params := ⟨8, true⟩ }) = true ∧
      max (8 : Word).toInt 0 ≤ (Params.mk 8 true).maxPixels) ∧
    (completes (exec (.init 5 1) State.reset) = true ∧ Invariant State.reset ∧ State.reset.strip = .uninitialized) :=
  ⟨by decide, by decide, by decide, ⟨by decide, fun _ => rfl, by decide, by decide⟩, rfl⟩
theorem witness_SetBrightnessStoresLowByte :
    (0x11000000800000000000000000 : CmdWord).extractLsb' 96 8 = 0x11 ∧ ready2.strip = .ready ⟨2, 3, []⟩ ∧
      State.reset.strip = .uninitialized := by decide
/-- The first and the last pixel, the first index above, and -1. -/
theorem witness_SetPixelStoresAndTransmits :
    (0x120000000000AABBCC00000000 : CmdWord).extractLsb' 96 8 = 0x12 ∧
    (ready2.strip = .ready ⟨2, 3, []⟩ ∧ Memory.wf [] ∧ ready2.transmitter = .completes) ∧
    (0 ≤ (0 : Word).toInt ∧ (0 : Word).toInt < (2 : BitVec 32).toNat) ∧
    (0 ≤ (1 : Word).toInt ∧ (1 : Word).toInt < (2 : BitVec 32).toNat) ∧
    ((2 : BitVec 32).toNat : Int) ≤ (2 : Word).toInt ∧ (0xFFFFFFFF : Word).toInt < 0 ∧
    State.reset.strip = .uninitialized := by decide
theorem witness_WireOrderAtFullBrightness :
    ready2.strip = .ready ⟨2, 3, []⟩ ∧ Memory.wf [] ∧ ready2.transmitter = .completes ∧ ready2.brightness = 255 ∧
    0 ≤ (1 : Word).toInt ∧ (1 : Word).toInt < (2 : BitVec 32).toNat := by decide
/-- A strip of two pixels and the empty strip. -/
theorem witness_ShowColorFillsAndTransmits :
    (0x1300FF00000000000000000000 : CmdWord).extractLsb' 96 8 = 0x13 ∧
    (ready2.strip = .ready ⟨2, 3, []⟩ ∧ Memory.wf [] ∧ ready2.transmitter = .completes) ∧
    (readyWith 0 5 255 []).strip = .ready ⟨0, 5, []⟩ ∧ State.reset.strip = .uninitialized := by decide
theorem witness_ShowColorIsRepeatedSetPixelThenShow :
    Invariant ready2 ∧ ready2.strip = .ready ⟨2, 3, []⟩ ∧ ready2.transmitter = .completes :=
  ⟨invariant_ready2, rfl, rfl⟩
theorem witness_ShowTransmitsTheBuffer :
    (0x14000000000000000000000000 : CmdWord).extractLsb' 96 8 = 0x14 ∧ ready2.strip = .ready ⟨2, 3, []⟩ ∧
      ready2.transmitter = .completes ∧ State.reset.strip = .uninitialized := by decide
/-- Two `SHOW`s, at once and with commands between; and a `SET_PIXEL` repeated, in range and with each fault. -/
theorem witness_RepeatedShowAndSetPixelAreIdempotent :
    Memory.wf [(0, 7), (5, 9)] ∧ (ready2.strip = .ready ⟨2, 3, []⟩ ∧ ready2.transmitter = .completes) ∧
    ((∀ i ∈ [Instr.setBrightness 0, .pack 1 2 3, .showStrip],
        i.mnemonic ≠ .INIT ∧ i.mnemonic ≠ .SET_PIXEL ∧ i.mnemonic ≠ .SHOW_COLOR) ∧
      completes (runCommands [.showStrip, .setBrightness 0, .pack 1 2 3, .showStrip] ready2) = true) ∧
    (Invariant ready2 ∧ completes (runCommands [.setPixel 1 0xAABBCC, .setPixel 1 0xAABBCC] ready2) = true ∧
      completes (runCommands [.setPixel 2 0xAABBCC, .setPixel 2 0xAABBCC] ready2) = true) ∧
    (Invariant State.reset ∧ completes (runCommands [.setPixel 0 0xAABBCC, .setPixel 0 0xAABBCC] State.reset) = true) :=
  ⟨by decide, ⟨rfl, rfl⟩, ⟨by decide, by decide⟩, ⟨invariant_ready2, by decide, by decide⟩,
    ⟨by decide, fun _ => rfl, by decide, by decide⟩, by decide⟩

/-- One command that completes and one that faults. -/
theorem witness_FaultChangesNothing :
    completes (step (presented [.command 0x01000000AA000000BB000000CC])) = true ∧
    step (presented [.command 0x14000000000000000000000000]) =
      .next { State.reset with responses := [⟨.uninitializedUse, none⟩] } ∧
    (presented [.command 0x14000000000000000000000000]).inputs = .command 0x14000000000000000000000000 :: [] :=
  ⟨by decide, rfl, rfl⟩
theorem witness_OneResponsePerCommand :
    completes (exec (.unpackR 1) State.reset) = true ∧ isCodec (.unpackR 1) = true := by decide
theorem witness_UninitializedUseExactly :
    needsReady (.setPixel 5 0xFFFFFF) = true ∧ State.reset.strip = .uninitialized ∧
    exec (.setPixel 5 0xFFFFFF) State.reset =
      .next { State.reset with responses := State.reset.responses ++ [⟨.uninitializedUse, none⟩] } := ⟨rfl, rfl, rfl⟩
/-- The first index above the strip, and -1. -/
theorem witness_OutOfRangeExactly :
    exec (.setPixel 2 0xFFFFFF) ready2 = .next { ready2 with responses := ready2.responses ++ [⟨.outOfRange, none⟩] } ∧
    exec (.setPixel 0xFFFFFFFF 0xFFFFFF) ready2 =
      .next { ready2 with responses := ready2.responses ++ [⟨.outOfRange, none⟩] } := ⟨rfl, rfl⟩
theorem witness_ConfigurationNeverRaised :
    completes (step (presented [.command 0x1000000005FFFFFFFC00000000])) = true ∧
    (presented [.command 0x1000000005FFFFFFFC00000000]).inputs = .command 0x1000000005FFFFFFFC00000000 :: [] ∧
    (0xFFFFFFFF : Word).toInt < 0 ∧ (0x80000000 : Word).toInt < 0 := by decide
theorem witness_ChecksInOrder :
    (presented [.command 0x00000000000000000000000000]).inputs = .command 0x00000000000000000000000000 :: [] ∧
    (0x00000000000000000000000000 : CmdWord).extractLsb' 96 8 ∉ assignedOpcodes ∧
    (0x12FFFFFFFF00FFFFFF00000000 : CmdWord).extractLsb' 96 8 ∈ [(0x11 : Byte), 0x12, 0x13, 0x14] ∧
    State.reset.strip = .uninitialized ∧
    ((0x10000000050000000900000000 : CmdWord).extractLsb' 96 8 = 0x10 ∧
      (small.params.maxPixels : Int) < max ((0x10000000050000000900000000 : CmdWord).extractLsb' 32 32).toInt 0) ∧
    ((0x120000000200FFFFFF00000000 : CmdWord).extractLsb' 96 8 = 0x12 ∧ ready2.strip = .ready ⟨2, 3, []⟩ ∧
      ¬(0 ≤ ((0x120000000200FFFFFF00000000 : CmdWord).extractLsb' 64 32).toInt ∧
        ((0x120000000200FFFFFF00000000 : CmdWord).extractLsb' 64 32).toInt < (2 : BitVec 32).toNat)) := by decide
theorem witness_ReadyIsLeftOnlyByReset :
    (step { ready2 with inputs := [.reset] } = .next State.reset ∧ ready2.strip ≠ .uninitialized ∧
      State.reset.strip = .uninitialized) ∧
    ∃ t, step (presented [.command 0x10000000030000000200000000]) = .next t ∧
      (presented [.command 0x10000000030000000200000000]).strip = .uninitialized ∧ t.strip ≠ .uninitialized :=
  ⟨⟨rfl, by decide, rfl⟩, _, rfl, by decide, by decide⟩
/-- A changed brightness, a changed strip, and a command other than `INIT` in `Ready`. -/
theorem witness_EachItemWrittenOnlyByItsCommands :
    (∃ t, exec (.setBrightness 7) ready2 = .next t ∧ t.brightness ≠ ready2.brightness) ∧
    (∃ t, exec (.setPixel 1 0xAABBCC) ready2 = .next t ∧ t.strip ≠ ready2.strip) ∧
    (Instr.setPixel 1 0xAABBCC).mnemonic ≠ .INIT ∧ ready2.strip = .ready ⟨2, 3, []⟩ ∧
    ready2.strip ≠ .uninitialized ∧     State.reset.strip = .uninitialized ∧ completes (exec (.setPixel 1 0xAABBCC) State.reset) = true :=
  ⟨⟨_, rfl, by decide⟩, ⟨_, rfl, by decide⟩, by decide, rfl, by decide, rfl, by decide⟩
/-- `SET_PIXEL` of the neighbouring pixel, and `SET_BRIGHTNESS`. -/
theorem witness_PixelKeptUntilWrittenAgain :
    completes (exec (.setPixel 1 0xAABBCC) ready2) = true ∧ completes (exec (.setBrightness 0) ready2) = true ∧
    ready2.strip = .ready ⟨2, 3, []⟩ ∧ (Instr.setPixel 1 0xAABBCC).mnemonic ≠ .INIT ∧
    (Instr.setPixel 1 0xAABBCC).mnemonic ≠ .SHOW_COLOR ∧
    (∀ index color, Instr.setPixel 1 0xAABBCC = .setPixel index color → index.toInt ≠ (0 : Nat)) ∧
    (∀ index color, Instr.setBrightness 0 = .setPixel index color → index.toInt ≠ (0 : Nat)) :=
  ⟨by decide, by decide, rfl, by decide, by decide, fun _ _ h => by cases h; decide, fun _ _ h => by cases h⟩
/-- Commands that complete with events of each kind, one that makes none, and one that faults. -/
theorem witness_TransmitsPerCommand :
    (∃ t, exec .showStrip ready2 = .next t ∧ t.responses = ready2.responses ++ [⟨.ok, none⟩] ∧
      t.strip = .ready ⟨2, 3, []⟩ ∧ t.trace = ready2.trace ++ [.transmit [0, 0, 0, 0, 0, 0] 3]) ∧
    (∃ t, exec (.init 4 0) ready2 = .next t ∧ t.responses = ready2.responses ++ [⟨.ok, none⟩] ∧
      t.trace = ready2.trace ++ [.pinWrite 4 .low]) ∧
    (∃ t, exec (.setBrightness 5) ready2 = .next t ∧ t.responses = ready2.responses ++ [⟨.ok, none⟩]) ∧
    (∃ t r', exec (.setPixel 1 0xAABBCC) ready2 = .next t ∧ t.responses = ready2.responses ++ [⟨.ok, none⟩] ∧
      t.strip = .ready r') ∧
    (∃ t r', exec (.showColor 0xFF0000) ready2 = .next t ∧ t.responses = ready2.responses ++ [⟨.ok, none⟩] ∧
      ready2.strip = .ready ⟨2, 3, []⟩ ∧ Memory.wf [] ∧ t.strip = .ready r') ∧
    ∃ t, exec .showStrip State.reset = .next t ∧ t.responses ≠ State.reset.responses ++ [⟨.ok, none⟩] :=
  ⟨⟨_, rfl, by decide, rfl, by decide⟩, ⟨_, rfl, by decide, by decide⟩, ⟨_, rfl, by decide⟩,
    ⟨_, _, rfl, by decide, rfl⟩, ⟨_, _, rfl, by decide, rfl, by decide, rfl⟩, _, rfl, by decide⟩
theorem witness_ObservationIsNeverRead :
    sameCore ready2 { ready2 with responses := [⟨.outOfRange, none⟩], trace := [.pinWrite 3 .low] } ∧
      completes (exec (.setPixel 0 0xAABBCC) ready2) = true := ⟨⟨rfl, rfl, rfl, rfl⟩, by decide⟩
theorem witness_CodecResultIndependentOfState : isCodec (.unpackB 0x12345678) = true := by decide
theorem witness_EveryCommandIsAnswered :
    ready2.transmitter = .completes ∧ transmitCount 0 (.setBrightness 5) = 0 ∧ transmitCount 0 (.init 5 3) = 0 := by
  decide
/-- Both sides hold of `SHOW`, and of `SET_PIXEL` at the last pixel. -/
theorem witness_StuckExactlyWhenTransmitNeverCompletes :
    exec .showStrip hung = .fault .transmitterNeverCompletes ∧ hung.transmitter = .neverCompletes ∧
    hung.strip = .ready ⟨2, 3, []⟩ ∧ exec (.setPixel 1 0xAABBCC) hung = .fault .transmitterNeverCompletes ∧
    0 ≤ (1 : Word).toInt ∧ (1 : Word).toInt < (2 : BitVec 32).toNat :=
  ⟨rfl, rfl, rfl, rfl, by decide, by decide⟩
theorem witness_ObservationOnlyGrows :
    (presented [.command 0x01000000AA000000BB000000CC, .reset]).inputs =
      .command 0x01000000AA000000BB000000CC :: [.reset] ∧
    completes (step (presented [.command 0x01000000AA000000BB000000CC, .reset])) = true := by decide
/-- A `SHOW_COLOR` in `Ready`, and a reset. -/
theorem witness_StepKeepsTheInvariant :
    Invariant ready2 ∧ Invariant { ready2 with inputs := [.command 0x1300FF00000000000000000000] } ∧
    completes (step { ready2 with inputs := [.command 0x1300FF00000000000000000000] }) = true ∧
    completes (step { ready2 with inputs := [.reset] }) = true :=
  ⟨invariant_ready2, ⟨invariant_ready2.strip, invariant_ready2.brightness, invariant_ready2.responses,
    invariant_ready2.trace⟩, by decide, by decide⟩

end Sys2Proof.Tests
end

section
/-! Proofs of the family 20_memory.md: the two byte orders (R53) and what repeating a store, a `SHOW` or a
`SET_PIXEL` does (R58). First the facts about the buffer, the codec and the scaler, then what each strip command
answers and keeps, then the statements. -/

namespace Sys2Proof.Machine

/-! ### Stores that change nothing (R58) -/

/-- R58: "writing a byte the value it already holds changes nothing". -/
theorem Memory.write_read_self {m : Memory} (hm : Memory.wf m) (a : Nat) :
    Memory.write m a (Memory.read m a) = m := by
  refine Memory.ext_of_read (Memory.wf_write hm a _) hm fun b => ?_
  rw [Memory.read_write hm]
  split
  · subst b; rfl
  · rfl

theorem memWrite_memWrite_same {m : Memory} (hm : Memory.wf m) (a : Nat) (vs : List Byte) :
    memWrite (memWrite m a vs) a vs = memWrite m a vs := by
  have hw : Memory.wf (memWrite m a vs) := memWrite_wf hm a vs
  refine Memory.ext_of_read (memWrite_wf hw a vs) hw fun b => ?_
  rw [read_memWrite hw]
  split
  · next hin => rw [read_memWrite hm, if_pos hin]
  · rfl

theorem writePixel_writePixel_same (i : Nat) (t : List Byte) {r : ReadyStrip} (h : Memory.wf r.buf) :
    writePixel i t (writePixel i t r) = writePixel i t r := by
  simp only [writePixel, memWrite_memWrite_same h]

/-! ### The fields of a packed colour (R53 (a)) -/

/-- Red in bits 23:16, green in 15:8, blue in 7:0. -/
theorem packColor_fields (r g b : Word) :
    (packColor r g b).extractLsb' 16 8 = low8 r ∧ (packColor r g b).extractLsb' 8 8 = low8 g ∧
      (packColor r g b).extractLsb' 0 8 = low8 b := by
  refine ⟨BitVec.eq_of_toNat_eq ?_, BitVec.eq_of_toNat_eq ?_, BitVec.eq_of_toNat_eq ?_⟩ <;>
  · rw [BitVec.extractLsb'_toNat, packColor_toNat, low8_toNat, Nat.shiftRight_eq_div_pow]
    omega

/-! ### The scaler at full brightness -/

theorem scale8_full (c : Byte) : scale8 c 255 = c := by
  apply BitVec.eq_of_toNat_eq
  rw [scale8_toNat]
  exact Nat.mul_div_cancel c.toNat (by decide)

theorem scaleTriplet_full (color : Word) :
    scaleTriplet color 255 = [unpackGreen color, unpackRed color, unpackBlue color] := by
  simp only [scaleTriplet, scale8_full]

/-! ### What `SHOW` and `SET_PIXEL` answer, case by case (R154, R159, R181, R182) -/

theorem indexInRange_eq_false_iff (a : Word) (n : BitVec 32) :
    indexInRange a n = false ↔ a.toInt < 0 ∨ (n.toNat : Int) ≤ a.toInt := by
  rw [← Bool.not_eq_true, indexInRange_iff]
  omega

theorem exec_showStrip_ready {s : State} {r : ReadyStrip} (hs : s.strip = .ready r)
    (htx : s.transmitter = .completes) :
    exec .showStrip s = .next ((s.emit (transmitEvent r)).respond none) := by
  change execShow s = _
  rw [execShow, whenReady_ready hs, finishTransmits_completes (by simpa using htx)]

theorem exec_setPixel_inRange {index : Word} (color : Word) {s : State} {r : ReadyStrip} (hs : s.strip = .ready r)
    (hi : indexInRange index r.pixelCount = true) (htx : s.transmitter = .completes) :
    exec (.setPixel index color) s =
      .next ((storeAndTransmit (indexOperand index) (scaleTriplet color s.brightness) r s).respond none) := by
  change execSetPixel index color s = _
  rw [execSetPixel, whenReady_ready hs, if_pos hi, finishTransmits_completes (by simpa using htx)]

theorem exec_setPixel_outOfRange {index : Word} (color : Word) {s : State} {r : ReadyStrip} (hs : s.strip = .ready r)
    (hi : indexInRange index r.pixelCount = false) :
    exec (.setPixel index color) s = .next (s.raise .outOfRange) := by
  change execSetPixel index color s = _
  rw [execSetPixel, whenReady_ready hs, if_neg (by simp [hi])]

theorem exec_setPixel_uninitialized (index color : Word) {s : State} (hs : s.strip = .uninitialized) :
    exec (.setPixel index color) s = .next (s.raise .uninitializedUse) := by
  change execSetPixel index color s = _
  rw [execSetPixel, whenReady_uninitialized hs]

/-! ### What commands keep, one at a time and in a list -/

theorem exec_transmitter_eq {i : Instr} {s t : State} (h : exec i s = .next t) : t.transmitter = s.transmitter := by
  cases exec_effect h <;> rfl

theorem exec_trace_prefix {i : Instr} {s t : State} (h : exec i s = .next t) : s.trace <+: t.trace := by
  cases exec_effect h <;> simp

/-- The commands that do not write the strip: all but `INIT`, `SET_PIXEL` and `SHOW_COLOR` (R23, R57). -/
def leavesStrip (i : Instr) : Prop :=
  i.mnemonic ≠ .INIT ∧ i.mnemonic ≠ .SET_PIXEL ∧ i.mnemonic ≠ .SHOW_COLOR

theorem exec_strip_of_leavesStrip {i : Instr} {s t : State} (hi : leavesStrip i) (h : exec i s = .next t) :
    t.strip = s.strip := by
  obtain ⟨hinit, hpixel, hcolor⟩ := hi
  cases exec_effect h with
  | result | uninitialized | brightness | flush => rfl
  | capacity | init => exact absurd rfl hinit
  | outOfRange | pixel => exact absurd rfl hpixel
  | fill => exact absurd rfl hcolor

theorem runCommands_cons_next {i : Instr} {is : List Instr} {s t : State} (h : runCommands (i :: is) s = .next t) :
    ∃ s', exec i s = .next s' ∧ runCommands is s' = .next t := by
  rw [runCommands] at h
  split at h
  · next s' hs' => exact ⟨s', hs', h⟩
  · cases h
  · cases h

/-- Commands that do not write the strip leave it, the device, and the events so far. -/
theorem runCommands_keeps {is : List Instr} {s t : State} (his : ∀ i ∈ is, leavesStrip i)
    (h : runCommands is s = .next t) :
    t.strip = s.strip ∧ t.transmitter = s.transmitter ∧ s.trace <+: t.trace := by
  induction is generalizing s with
  | nil => cases h; exact ⟨rfl, rfl, List.prefix_rfl⟩
  | cons i is ih =>
    obtain ⟨s', hi, his'⟩ := runCommands_cons_next h
    obtain ⟨hstrip, htx, htrace⟩ := ih (fun j hj => his j (by simp [hj])) his'
    exact ⟨hstrip.trans (exec_strip_of_leavesStrip (his i (by simp)) hi), htx.trans (exec_transmitter_eq hi),
      (exec_trace_prefix hi).trans htrace⟩

/-! ### Repeated commands (R58) -/

theorem showStrip_twice {s : State} {r : ReadyStrip} (hs : s.strip = .ready r) (htx : s.transmitter = .completes) :
    ∃ t, runCommands [.showStrip, .showStrip] s = .next t ∧ t.strip = s.strip ∧
      t.trace = s.trace ++ [transmitEvent r, transmitEvent r] := by
  refine ⟨(((s.emit (transmitEvent r)).respond none).emit (transmitEvent r)).respond none, ?_, rfl, by simp⟩
  simp only [runCommands, exec_showStrip_ready hs htx]
  rw [exec_showStrip_ready (r := r) (by simpa using hs) (by simpa using htx)]

/-- A `SHOW` after a `SHOW` and commands that leave the strip. -/
theorem showStrip_again {between : List Instr} {s t : State} {r : ReadyStrip} (hs : s.strip = .ready r)
    (hb : ∀ i ∈ between, leavesStrip i) (h : runCommands (.showStrip :: between) s = .next t) :
    s.trace ++ [transmitEvent r] <+: t.trace ∧
      ∃ u, exec .showStrip t = .next u ∧ u.strip = s.strip ∧ u.trace = t.trace ++ [transmitEvent r] := by
  obtain ⟨s', hshow, hrest⟩ := runCommands_cons_next h
  obtain ⟨hun, -⟩ | ⟨r', hr', htx, rfl⟩ := execShow_cases hshow
  · rw [hs] at hun; cases hun
  · obtain rfl : r = r' := by simpa [hs] using hr'
    obtain ⟨hstrip, htx', htrace⟩ := runCommands_keeps hb hrest
    exact ⟨by simpa using htrace, _, exec_showStrip_ready (hstrip.trans hs) (htx'.trans htx), hstrip, rfl⟩

theorem State.setStrip_self (s : State) : s.setStrip s.strip = s := rfl

/-- A `SET_PIXEL` whose bytes the strip already holds only transmits, as a `SHOW` does. -/
theorem exec_setPixel_stored {index color : Word} {s : State} {r : ReadyStrip} (hs : s.strip = .ready r)
    (hi : indexInRange index r.pixelCount = true) (htx : s.transmitter = .completes)
    (hsame : writePixel (indexOperand index) (scaleTriplet color s.brightness) r = r) :
    exec (.setPixel index color) s = .next ((s.emit (transmitEvent r)).respond none) := by
  rw [exec_setPixel_inRange color hs hi htx, storeAndTransmit, hsame, ← hs, State.setStrip_self]

/-! ### The statements -/

/-- Settles O28: the fields of a packed colour from its value, and at brightness 255 the scaler is the identity, so the
bytes read back from the pixel are the unpacked channels. -/
theorem wireOrderAtFullBrightness : Obligations.WireOrderAtFullBrightness := by
  refine ⟨packColor_fields, ?_⟩
  intro index color s r hs hbuf htx hbright h0 hlt
  have hread : ∀ k < 3,
      Memory.read (writePixel (indexOperand index) (scaleTriplet color s.brightness) r).buf
        (3 * index.toInt.toNat + k) = [unpackGreen color, unpackRed color, unpackBlue color].getD k 0 := by
    intro k hk
    rw [hbright, scaleTriplet_full]
    exact read_writePixel_inside (indexOperand index) _ hbuf hk
  exact ⟨_, _, exec_setPixel_inRange color hs ((indexInRange_iff _ _).2 ⟨h0, hlt⟩) htx, rfl,
    hread 0 (by decide), hread 1 (by decide), hread 2 (by decide)⟩

/-- Settles O32: canonical buffers are determined by their reads, a `SHOW` leaves the strip, and storing a pixel twice
is storing it once. -/
theorem repeatedShowAndSetPixelAreIdempotent : Obligations.RepeatedShowAndSetPixelAreIdempotent := by
  refine ⟨fun m a hm => Memory.write_read_self hm a, fun s r hs htx => showStrip_twice hs htx,
    fun between s t r hs hb h => showStrip_again hs hb h, ?_⟩
  intro index color s t u hinv ht hu
  obtain ⟨hun, rfl⟩ | ⟨r, hs, ⟨hi, rfl⟩ | ⟨hi, htx, rfl⟩⟩ := execSetPixel_cases ht
  · rw [exec_setPixel_uninitialized index color (by simpa using hun)] at hu
    cases hu
    exact ⟨rfl, .inr (.inl ⟨hun, rfl, rfl, rfl, by simp⟩)⟩
  · rw [exec_setPixel_outOfRange color (by simpa using hs) hi] at hu
    cases hu
    exact ⟨rfl, .inr (.inr ⟨r, hs, (indexInRange_eq_false_iff _ _).1 hi, rfl, rfl, rfl, by simp⟩)⟩
  · have hwf : Strip.wf s.params (.ready r) = true := hs ▸ hinv.strip
    obtain ⟨-, -, hbuf, -⟩ := (Strip.wf_ready_iff _ _).1 hwf
    obtain ⟨h0, hlt⟩ := (indexInRange_iff _ _).1 hi
    have hsame := writePixel_writePixel_same (indexOperand index) (scaleTriplet color s.brightness) hbuf
    cases hu.symm.trans (exec_setPixel_stored rfl hi htx hsame)
    exact ⟨rfl, .inl ⟨r, _, hs, h0, hlt, rfl, rfl, by simp [transmitEvent]⟩⟩

end Sys2Proof.Machine
end

section
/-! Proofs of the family 30_encoding.md: decoding is the opcode table of R81, and which opcodes that leaves reserved
(R83, R84). -/

namespace Sys2Proof

/-! ### The reserved opcodes (R84) -/

theorem mnemonicOfCode_ne_none_iff {op : Byte} : mnemonicOfCode op ≠ none ↔ ∃ m : Mnemonic, m.code = op := by
  refine ⟨fun h => ?_, ?_⟩
  · obtain ⟨m, hm⟩ := Option.ne_none_iff_exists'.1 h
    exact ⟨m, mnemonicOfCode_eq_some hm⟩
  · rintro ⟨m, rfl⟩
    simp

theorem mem_assignedMnemonics (m : Mnemonic) : m ∈ assignedMnemonics := by cases m <;> decide

/-- The opcodes R81's table uses, as numbers. -/
def assignedCodes : List Nat := assignedMnemonics.map fun m => m.code.toNat

theorem mem_assignedCodes_iff (n : Nat) :
    n ∈ assignedCodes ↔ n < 256 ∧ mnemonicOfCode (BitVec.ofNat 8 n) ≠ none := by
  rw [mnemonicOfCode_ne_none_iff, assignedCodes, List.mem_map]
  constructor
  · rintro ⟨m, -, rfl⟩
    exact ⟨m.code.isLt, m, by simp⟩
  · rintro ⟨hn, m, hm⟩
    exact ⟨m, mem_assignedMnemonics m, by simp [hm, Nat.mod_eq_of_lt hn]⟩

/-- The assigned values of the opcode byte are the nine of the table, each once. -/
theorem filter_assigned_perm_assignedCodes :
    ((List.range 256).filter fun n => !decide (mnemonicOfCode (BitVec.ofNat 8 n) = none)).Perm assignedCodes := by
  refine (List.perm_ext_iff_of_nodup (List.nodup_range.filter _) (by decide)).2 fun n => ?_
  simp [mem_assignedCodes_iff]

/-- R84's 247 is `256 - 9`. -/
theorem length_filter_reserved :
    ((List.range 256).filter fun n => decide (mnemonicOfCode (BitVec.ofNat 8 n) = none)).length = 247 := by
  have hsplit := List.length_eq_length_filter_add (l := List.range 256)
    fun n => decide (mnemonicOfCode (BitVec.ofNat 8 n) = none)
  have hnine : assignedCodes.length = 9 := rfl
  rw [filter_assigned_perm_assignedCodes.length_eq, hnine, List.length_range] at hsplit
  omega

/-! ### The statement -/

/-- Settles O3: an assigned `OP` is the code of its mnemonic, whose row is `Instr.ofFields`; a reserved one differs from
the code of every row. -/
theorem decodingFollowsTheOpcodeTable : Obligations.DecodingFollowsTheOpcodeTable := by
  refine ⟨fun w => ?_, decode_of_reserved (by decide), length_filter_reserved⟩
  cases h : mnemonicOfCode (opField w) with
  | some m =>
    have hop : w.extractLsb' 96 8 = m.code := (mnemonicOfCode_eq_some h).symm
    rw [decode_of_assigned hop, hop]
    cases m <;> rfl
  | none =>
    have hop (m : Mnemonic) : w.extractLsb' 96 8 ≠ m.code :=
      fun hm => mnemonicOfCode_ne_none_iff.2 ⟨m, hm.symm⟩ h
    rw [decode_of_reserved h]
    exact .symm <| (if_neg (hop .PACK)).trans <| (if_neg (hop .UNPACK_R)).trans <| (if_neg (hop .UNPACK_G)).trans <|
      (if_neg (hop .UNPACK_B)).trans <| (if_neg (hop .INIT)).trans <| (if_neg (hop .SET_BRIGHTNESS)).trans <|
      (if_neg (hop .SET_PIXEL)).trans <| (if_neg (hop .SHOW_COLOR)).trans <| if_neg (hop .SHOW)

end Sys2Proof
end

section
/-! Proofs of the family 40_color_codec.md: every channel of the codec is the low byte of a word, shifted for red and
green, and a colour is known by its three low bytes. First those facts, then the statements (R111 to R116). -/

namespace Sys2Proof.Machine

/-! ### A low byte and the mask `0xFF` (R86, R92) -/

/-- A channel as a result is the operand masked (R92 after R86). -/
theorem byteResult_low8 (v : Word) : byteResult (low8 v) = v &&& 0xFF := by
  apply BitVec.eq_of_toNat_eq
  rw [byteResult_toNat, low8_toNat, BitVec.toNat_and]
  exact (Nat.and_two_pow_sub_one_eq_mod v.toNat 8).symm

theorem low8_byteResult (v : Byte) : low8 (byteResult v) = v := by
  apply BitVec.eq_of_toNat_eq
  rw [low8_toNat, byteResult_toNat, Nat.mod_eq_of_lt v.isLt]

theorem low8_mask (v : Word) : low8 (v &&& 0xFF) = low8 v := by
  rw [← byteResult_low8, low8_byteResult]

theorem low8_eq_of_mask_eq {v v' : Word} (h : v &&& 0xFF = v' &&& 0xFF) : low8 v = low8 v' := by
  rw [← low8_mask v, h, low8_mask]

theorem byteResult_toNat_le (v : Byte) : (byteResult v).toNat ≤ 255 := by
  rw [byteResult_toNat]
  exact Nat.le_of_lt_succ v.isLt

/-! ### The channels of a colour (R112 to R114) -/

theorem unpackRed_eq_low8 (color : Word) : unpackRed color = low8 (color >>> 16) := by
  apply BitVec.eq_of_toNat_eq
  rw [unpackRed_toNat, low8_toNat, BitVec.toNat_ushiftRight, Nat.shiftRight_eq_div_pow]

theorem unpackGreen_eq_low8 (color : Word) : unpackGreen color = low8 (color >>> 8) := by
  apply BitVec.eq_of_toNat_eq
  rw [unpackGreen_toNat, low8_toNat, BitVec.toNat_ushiftRight, Nat.shiftRight_eq_div_pow]

theorem unpackBlue_eq_low8 (color : Word) : unpackBlue color = low8 color := rfl

/-! ### The packed colour (R111, R115, R116) -/

theorem colorResult_toNat (v : ColorWord) : (colorResult v).toNat = v.toNat := by
  have := v.isLt
  simp only [colorResult, BitVec.toNat_setWidth]; omega

theorem append_low8_toNat {n : Nat} (x : BitVec n) (v : Word) :
    (x ++ low8 v).toNat = x.toNat * 256 + v.toNat % 256 := by
  rw [BitVec.toNat_append, ← Nat.shiftLeft_add_eq_or_of_lt (low8 v).isLt, Nat.shiftLeft_eq, low8_toNat]

/-- R111: the OR of the three shifted fields is their concatenation. -/
theorem colorResult_packColor (r g b : Word) :
    colorResult (packColor r g b) = (0 : Byte) ++ low8 r ++ low8 g ++ low8 b := by
  have hzero : (0 : Byte).toNat = 0 := rfl
  apply BitVec.eq_of_toNat_eq
  rw [colorResult_toNat, packColor_toNat, append_low8_toNat, append_low8_toNat, append_low8_toNat, hzero]
  omega

/-- Packing reads the low byte of each operand and nothing else. -/
theorem packColor_congr {r g b r' g' b' : Word} (hr : low8 r = low8 r') (hg : low8 g = low8 g')
    (hb : low8 b = low8 b') : packColor r g b = packColor r' g' b' := by
  simp only [packColor, hr, hg, hb]

theorem extractLsb'_colorResult (v : ColorWord) (i : Nat) :
    (colorResult v).extractLsb' i 8 = v.extractLsb' i 8 := by
  apply BitVec.eq_of_toNat_eq
  rw [BitVec.extractLsb'_toNat, BitVec.extractLsb'_toNat, colorResult_toNat]

/-- The fields of a packed colour (`packColor_fields`), read from the result word. -/
theorem unpack_colorResult_packColor (r g b : Word) :
    unpackRed (colorResult (packColor r g b)) = low8 r ∧ unpackGreen (colorResult (packColor r g b)) = low8 g ∧
      unpackBlue (colorResult (packColor r g b)) = low8 b := by
  obtain ⟨hred, hgreen, hblue⟩ := packColor_fields r g b
  exact ⟨(extractLsb'_colorResult _ 16).trans hred, (extractLsb'_colorResult _ 8).trans hgreen,
    (extractLsb'_colorResult _ 0).trans hblue⟩

/-- The three channels hold bits 23:0 of a colour, so packing them drops bits 31:24 only. -/
theorem colorResult_packColor_unpack (c : Word) :
    colorResult (packColor (byteResult (unpackRed c)) (byteResult (unpackGreen c)) (byteResult (unpackBlue c))) =
      c &&& 0xFFFFFF := by
  have hmask : (c &&& 0xFFFFFF).toNat = c.toNat % 2 ^ 24 := Nat.and_two_pow_sub_one_eq_mod c.toNat 24
  apply BitVec.eq_of_toNat_eq
  rw [hmask, colorResult_toNat, packColor_toNat, byteResult_toNat, byteResult_toNat, byteResult_toNat, unpackRed_toNat,
    unpackGreen_toNat, unpackBlue_toNat]
  omega

/-! ### The statements -/

/-- Settles O12: the opcode is that of `PACK`, and the response's value is the packed colour, as a concatenation and as
a number. -/
theorem packResult : Obligations.PackResult := by
  refine ⟨fun w hop => decode_of_assigned (m := .PACK) hop, fun r g b s => ?_⟩
  refine ⟨colorResult (packColor r g b), rfl, colorResult_packColor r g b, ?_⟩
  rw [colorResult_toNat, packColor_toNat]

/-- Settles O13: each channel is the low byte of the colour, shifted for red and green, and a byte result is that word
masked. -/
theorem unpackResults : Obligations.UnpackResults := by
  refine ⟨fun w => ⟨fun hop => decode_of_assigned (m := .UNPACK_R) hop,
    fun hop => decode_of_assigned (m := .UNPACK_G) hop, fun hop => decode_of_assigned (m := .UNPACK_B) hop⟩,
    fun color s => ?_⟩
  refine ⟨byteResult (unpackRed color), byteResult (unpackGreen color), byteResult (unpackBlue color), rfl, rfl, rfl,
    ?_, ?_, ?_, byteResult_toNat_le _, byteResult_toNat_le _, byteResult_toNat_le _⟩
  · rw [unpackRed_eq_low8, byteResult_low8]
  · rw [unpackGreen_eq_low8, byteResult_low8]
  · rw [unpackBlue_eq_low8, byteResult_low8]

/-- Settles O14: unpacking a packed colour gives the low bytes, which as results are the masked operands; packing the
channels gives bits 23:0. -/
theorem packUnpackRoundTrip : Obligations.PackUnpackRoundTrip := by
  refine ⟨fun r g b => ?_, colorResult_packColor_unpack⟩
  obtain ⟨hred, hgreen, hblue⟩ := unpack_colorResult_packColor r g b
  rw [hred, hgreen, hblue]
  exact ⟨byteResult_low8 r, byteResult_low8 g, byteResult_low8 b⟩

/-- Settles O15: masking with `0xFF` keeps the low byte, and words equal under the mask have the same one. -/
theorem packKeepsLowBytes : Obligations.PackKeepsLowBytes := by
  refine ⟨fun r g b => packColor_congr (low8_mask r).symm (low8_mask g).symm (low8_mask b).symm,
    fun r g b r' g' b' hr hg hb =>
      packColor_congr (low8_eq_of_mask_eq hr) (low8_eq_of_mask_eq hg) (low8_eq_of_mask_eq hb), ?_⟩
  have hlow : low8 (256 + 5) = low8 5 := by decide
  exact packColor_congr hlow rfl rfl

end Sys2Proof.Machine
end

section
/-! Proofs of the family 41_brightness_scaler.md: the scaled channel as an exact quotient (R130, R132), its laws (R134
to R136), and the triplet of a colour (R133). The one long part is R136's count of the pairs where dividing by 255 and
by 256 differ. In a row `c` of the table it is the difference of the sums of `⌊c * b / 255⌋` and of `⌊c * b / 256⌋`, and
such a sum is known in closed form by pairing `b` with `m - b`. -/

namespace Sys2Proof.Machine

/-! ### The scaled channel (R130, R132, R135, R136) -/

theorem scale8_comm (c br : Byte) : scale8 c br = scale8 br c := by
  simp only [scale8, Nat.mul_comm]

theorem scale8_zero (c : Byte) : scale8 c 0 = 0 := by
  apply BitVec.eq_of_toNat_eq
  rw [scale8_toNat]
  exact Nat.zero_div 255

theorem scale8_mono_left {c₁ c₂ : Byte} (h : c₁ ≤ c₂) (br : Byte) : scale8 c₁ br ≤ scale8 c₂ br := by
  rw [BitVec.le_def, scale8_toNat, scale8_toNat]
  exact Nat.div_le_div_right (Nat.mul_le_mul_right _ h)

theorem scale8_ofNat_toNat {c br : Nat} (hc : c < 256) (hbr : br < 256) :
    (scale8 (BitVec.ofNat 8 c) (BitVec.ofNat 8 br)).toNat = c * br / 255 := by
  rw [scale8_toNat, BitVec.toNat_ofNat, BitVec.toNat_ofNat, Nat.mod_eq_of_lt hc, Nat.mod_eq_of_lt hbr]

/-- A product of bytes over 255 is at most its first factor, as the second is at most 255. -/
theorem mul_toNat_div_255_le (c : Nat) (br : Byte) : c * br.toNat / 255 ≤ c :=
  Nat.div_le_of_le_mul (Nat.mul_comm 255 c ▸ Nat.mul_le_mul_left c (Nat.le_of_lt_succ br.isLt))

/-! ### The triplet (R133, R135) -/

theorem scaleTriplet_zero (color : Word) : scaleTriplet color 0 = List.replicate 3 0 := by
  simp only [scaleTriplet, scale8_zero]; rfl

theorem scaleTriplet_toNat (color : Word) (br : Byte) :
    (scaleTriplet color br).map BitVec.toNat =
      [color.toNat / 256 % 256 * br.toNat / 255, color.toNat / 65536 % 256 * br.toNat / 255,
       color.toNat % 256 * br.toNat / 255] := by
  simp only [scaleTriplet, List.map_cons, List.map_nil, scale8_toNat, unpackGreen_toNat, unpackRed_toNat,
    unpackBlue_toNat]

/-- Bits 31:24 of a colour reach no channel: bits 23:0 are the packed channels, which unpack to themselves. -/
theorem scaleTriplet_mask (color : Word) (br : Byte) :
    scaleTriplet (color &&& 0xFFFFFF) br = scaleTriplet color br := by
  rw [← colorResult_packColor_unpack]
  obtain ⟨hred, hgreen, hblue⟩ := unpack_colorResult_packColor (byteResult (unpackRed color))
    (byteResult (unpackGreen color)) (byteResult (unpackBlue color))
  simp only [scaleTriplet, hred, hgreen, hblue, low8_byteResult]

/-! ### The sum of `⌊c * b / m⌋` over `b < m` -/

/-- The multiples of `m` among the `c * b` are those with `m / gcd c m` dividing `b`. -/
theorem count_dvd_mul (c : Nat) {m : Nat} (hm : 0 < m) : Nat.count (fun b => m ∣ c * b) m = Nat.gcd c m := by
  obtain ⟨g, c', m', hg, hcop, rfl, rfl⟩ := Nat.exists_coprime' (m := c) (n := m) (Nat.gcd_pos_of_pos_right c hm)
  have hm' : 0 < m' := Nat.pos_of_mul_pos_right hm
  have hiff (b : Nat) : m' * g ∣ c' * g * b ↔ b ≡ 0 [MOD m'] := by
    rw [Nat.mul_right_comm, Nat.mul_dvd_mul_iff_right hg, hcop.symm.dvd_mul_left, Nat.modEq_zero_iff_dvd]
  simp only [hiff, Nat.count_modEq_card _ hm', Nat.gcd_mul_right, hcop.gcd_eq_one]
  simp [Nat.mul_div_cancel_left g hm']

/-- `c * b / m` and `c * (m - b) / m` add up to `c` where `m` divides `c * b`, else to `c - 1`. -/
theorem mul_div_add_mul_sub_div (c : Nat) {b m : Nat} (hb : b < m) :
    c * b / m + c * (m - b) / m + 1 = c + if m ∣ c * b then 1 else 0 := by
  have hm : 0 < m := Nat.zero_lt_of_lt hb
  have hle : c * b ≤ m * c := Nat.mul_comm m c ▸ Nat.mul_le_mul_left c hb.le
  rw [Nat.mul_sub, Nat.mul_comm c m]
  split
  · next hdvd =>
    obtain ⟨q, hq⟩ := hdvd
    have hqc : q ≤ c := Nat.le_of_mul_le_mul_left (hq ▸ hle) hm
    rw [hq, ← Nat.mul_sub, Nat.mul_div_cancel_left q hm, Nat.mul_div_cancel_left _ hm]
    omega
  · next hndvd =>
    obtain ⟨x, hx⟩ : ∃ x, c * b = x + 1 := Nat.exists_eq_succ_of_ne_zero fun h0 => hndvd (h0 ▸ Nat.dvd_zero m)
    have hlt : x < m * c := by omega
    have hquot : x / m < c := Nat.div_lt_of_lt_mul hlt
    rw [hx, Nat.mul_sub_div x m c hlt, Nat.succ_div_of_not_dvd (hx ▸ hndvd)]
    omega

theorem sum_range_mul_div (c : Nat) {m : Nat} (hm : 0 < m) :
    2 * ∑ b ∈ Finset.range m, c * b / m + c + m = c * m + Nat.gcd c m := by
  have hreflect : ∑ b ∈ Finset.range m, c * (m - b) / m = ∑ b ∈ Finset.range m, c * b / m + c := by
    calc ∑ b ∈ Finset.range m, c * (m - b) / m
        = ∑ b ∈ Finset.range m, c * (m - 1 - b + 1) / m :=
          Finset.sum_congr rfl fun b hb => by
            rw [show m - b = m - 1 - b + 1 by have := Finset.mem_range.1 hb; omega]
      _ = ∑ b ∈ Finset.range m, c * (b + 1) / m := Finset.sum_range_reflect (fun b => c * (b + 1) / m) m
      _ = ∑ b ∈ Finset.range (m + 1), c * b / m := by simp [Finset.sum_range_succ' (fun b => c * b / m)]
      _ = ∑ b ∈ Finset.range m, c * b / m + c := by rw [Finset.sum_range_succ, Nat.mul_div_cancel c hm]
  have hpairs : ∑ b ∈ Finset.range m, (c * b / m + c * (m - b) / m + 1) =
      ∑ b ∈ Finset.range m, (c + if m ∣ c * b then 1 else 0) :=
    Finset.sum_congr rfl fun b hb => mul_div_add_mul_sub_div c (Finset.mem_range.1 hb)
  have hcount : ∑ b ∈ Finset.range m, (if m ∣ c * b then 1 else 0) = Nat.gcd c m := by
    rw [← Finset.card_filter, ← Nat.count_eq_card_filter_range, count_dvd_mul c hm]
  simp only [Finset.sum_add_distrib, hreflect, hcount, Finset.sum_const, Finset.card_range, smul_eq_mul,
    mul_one] at hpairs
  linarith

/-! ### The pairs where the divisors 255 and 256 differ (R136) -/

theorem count_congr {p q : Nat → Prop} [DecidablePred p] [DecidablePred q] {n : Nat} (h : ∀ k < n, (p k ↔ q k)) :
    Nat.count p n = Nat.count q n :=
  Nat.le_antisymm (Nat.count_mono_left fun k hk => (h k hk).1) (Nat.count_mono_left fun k hk => (h k hk).2)

/-- A count over the pairs `(n / m, n % m)` is a count row by row. -/
theorem count_div_mod (p : Nat → Nat → Prop) [∀ c, DecidablePred (p c)] (k m : Nat) :
    Nat.count (fun n => p (n / m) (n % m)) (k * m) = ∑ c ∈ Finset.range k, Nat.count (p c) m := by
  induction k with
  | zero => simp
  | succ k ih =>
    rw [Nat.succ_mul, Nat.count_add, ih, Finset.sum_range_succ]
    refine congrArg (_ + ·) (count_congr fun b hb => ?_)
    rw [Nat.mul_add_mod_of_lt hb, Nat.mul_comm k m, Nat.mul_add_div (Nat.zero_lt_of_lt hb), Nat.div_eq_of_lt hb,
      Nat.add_zero]

/-- Up to `255 * 255` the quotients by 255 and by 256 differ by at most 1. -/
theorem div_255_eq {n : Nat} (h : n ≤ 255 * 255) : n / 255 = n / 256 + if n / 255 ≠ n / 256 then 1 else 0 := by
  split <;> omega

/-- The pairs of row `c` where the divisors 255 and 256 give different quotients. -/
theorem count_div_255_ne_div_256 {c : Nat} (hc : c < 256) :
    2 * Nat.count (fun b => c * b / 255 ≠ c * b / 256) 256 + Nat.gcd c 256 = c + 1 + Nat.gcd c 255 := by
  have h255 := sum_range_mul_div c (m := 255) (by decide)
  have h256 := sum_range_mul_div c (m := 256) (by decide)
  have hlast : ∑ b ∈ Finset.range 256, c * b / 255 = ∑ b ∈ Finset.range 255, c * b / 255 + c := by
    rw [Finset.sum_range_succ, Nat.mul_div_cancel c (by decide)]
  have hrow : ∑ b ∈ Finset.range 256, c * b / 255 =
      ∑ b ∈ Finset.range 256, (c * b / 256 + if c * b / 255 ≠ c * b / 256 then 1 else 0) :=
    Finset.sum_congr rfl fun b hb => div_255_eq <|
      Nat.mul_le_mul (Nat.le_of_lt_succ hc) (Nat.le_of_lt_succ (Finset.mem_range.1 hb))
  rw [Finset.sum_add_distrib, ← Finset.card_filter, ← Nat.count_eq_card_filter_range] at hrow
  omega

theorem sum_range_gcd_255_256 :
    ∑ c ∈ Finset.range 256, (c + 1 + Nat.gcd c 255) = 2 * 16678 + ∑ c ∈ Finset.range 256, Nat.gcd c 256 := by
  decide +kernel

/-- R136's 16678: the rows added up. -/
theorem sum_rows_eq {f : Nat → Nat} (hf : ∀ c < 256, 2 * f c + Nat.gcd c 256 = c + 1 + Nat.gcd c 255) :
    ∑ c ∈ Finset.range 256, f c = 16678 := by
  have hsum : 2 * ∑ c ∈ Finset.range 256, f c + ∑ c ∈ Finset.range 256, Nat.gcd c 256 =
      2 * 16678 + ∑ c ∈ Finset.range 256, Nat.gcd c 256 := by
    rw [← sum_range_gcd_255_256, Finset.mul_sum, ← Finset.sum_add_distrib]
    exact Finset.sum_congr rfl fun c hc => hf c (Finset.mem_range.1 hc)
  exact Nat.eq_of_mul_eq_mul_left Nat.two_pos (Nat.add_right_cancel hsum)

theorem count_scale8_ne_div_256 :
    Nat.count (fun n => (scale8 (BitVec.ofNat 8 (n / 256)) (BitVec.ofNat 8 (n % 256))).toNat ≠
      n / 256 * (n % 256) / 256) (256 * 256) = 16678 := by
  rw [count_div_mod fun c b => (scale8 (BitVec.ofNat 8 c) (BitVec.ofNat 8 b)).toNat ≠ c * b / 256]
  refine sum_rows_eq fun c hc => ?_
  rw [← count_div_255_ne_div_256 hc]
  refine congrArg (2 * · + _) (count_congr fun b hb => ?_)
  rw [scale8_ofNat_toNat hc hb]

/-- R136: a divisor that keeps 255 at full brightness is 255. -/
theorem eq_255_of_mul_div_eq {d : Nat} (h : 255 * 255 / d = 255) : d = 255 := by
  obtain ⟨hle, hlt⟩ := (Nat.div_eq_iff (Nat.pos_of_ne_zero (by rintro rfl; simp at h))).1 h
  omega

/-! ### The statements -/

/-- Settles O18: both are the identity at 255 that the scaler's laws give. -/
theorem fullBrightnessIsIdentity : Obligations.FullBrightnessIsIdentity :=
  ⟨scale8_full, scaleTriplet_full⟩

/-- Settles O17: the quotient is at most either factor, since the other is at most 255. -/
theorem scaledChannelIsExactQuotient : Obligations.ScaledChannelIsExactQuotient := by
  intro c br
  have hbr : c.toNat * br.toNat / 255 ≤ br.toNat := Nat.mul_comm br.toNat c.toNat ▸ mul_toNat_div_255_le br.toNat c
  exact ⟨Nat.mul_le_mul (Nat.le_of_lt_succ c.isLt) (Nat.le_of_lt_succ br.isLt), scale8_toNat c br,
    Nat.le_min.2 ⟨mul_toNat_div_255_le c.toNat br, hbr⟩, Nat.le_of_lt_succ (scale8 c br).isLt⟩

/-- Settles O19: at brightness 0 the triplet is three zeros, and the pixel's bytes read back as the triplet. -/
theorem zeroBrightnessStoresZero : Obligations.ZeroBrightnessStoresZero := by
  refine ⟨scale8_zero, fun br => (scale8_comm 0 br).trans (scale8_zero br), ?_⟩
  intro index color s r hs hbuf hbright h0 hlt htx
  refine ⟨_, _, exec_setPixel_inRange color hs ((indexInRange_iff _ _).2 ⟨h0, hlt⟩) htx, rfl, fun k hk => ?_⟩
  rw [hbright, scaleTriplet_zero]
  exact (read_writePixel_inside (indexOperand index) _ hbuf hk).trans (List.getD_replicate _ hk)

/-- Settles O22: the channels as numbers, and colours equal under the mask of bits 23:0 have the triplet of the masked
colour. -/
theorem tripletIsScaledChannelsInWireOrder : Obligations.TripletIsScaledChannelsInWireOrder := by
  refine ⟨scaleTriplet_toNat, fun color color' br h => ?_⟩
  rw [← scaleTriplet_mask color, h, scaleTriplet_mask]

/-- Settles O20: symmetry carries the laws of one argument to the other, and the count is the sum over the rows. -/
theorem scalerLaws : Obligations.ScalerLaws := by
  refine ⟨scale8_comm, fun br => (scale8_comm 255 br).trans (scale8_full br), fun c₁ c₂ br h => ?_, by decide,
    count_scale8_ne_div_256, by decide, by decide, fun d h => eq_255_of_mul_div_eq (h 255 (Nat.le_refl 255))⟩
  exact ⟨scale8_mono_left h br, scale8_comm c₁ br ▸ scale8_comm c₂ br ▸ scale8_mono_left h br⟩

end Sys2Proof.Machine
end

section
/-! Proofs of the family 42_strip_buffer.md: what `INIT`, `SET_BRIGHTNESS`, `SET_PIXEL`, `SHOW_COLOR` and `SHOW` answer
in each state, what they store and what they transmit (R150 to R159). -/

namespace Sys2Proof.Machine

/-! ### What the commands answer, case by case (R150, R152, R153, R157, R181) -/

/-- R181: whatever its operands are. -/
theorem exec_uninitialized {i : Instr} {s : State} (hi : needsReady i = true) (hs : s.strip = .uninitialized) :
    exec i s = .next (s.raise .uninitializedUse) := by
  cases i with
  | pack | unpackR | unpackG | unpackB | init => cases hi
  | setBrightness | setPixel | showColor | showStrip => exact whenReady_uninitialized hs _

theorem lengthOperand_toInt (b : Word) : (lengthOperand b : Int) = max b.toInt 0 :=
  Int.toNat_of_nonneg (le_max_right b.toInt 0)

theorem exec_init_fits (pin : Word) {length : Word} {s : State} (h : lengthOperand length ≤ s.params.maxPixels) :
    exec (.init pin length) s = .next
      { s with
        strip := .ready (freshStrip pin (lengthOperand length))
        brightness := brightnessAfterInit s
        trace := s.trace ++ [.pinWrite pin .low]
        responses := s.responses ++ [⟨.ok, none⟩] } := by
  change execInit pin length s = _
  rw [execInit, capacityExceeded, if_neg (by simpa using h)]
  rfl

theorem exec_init_tooLong (pin : Word) {length : Word} {s : State} (h : s.params.maxPixels < lengthOperand length) :
    exec (.init pin length) s = .next (s.raise .capacity) := by
  change execInit pin length s = _
  rw [execInit, capacityExceeded, if_pos (by simpa using h)]

theorem exec_setBrightness_ready (level : Word) {s : State} {r : ReadyStrip} (hs : s.strip = .ready r) :
    exec (.setBrightness level) s = .next ((s.setBrightness (low8 level)).respond none) :=
  whenReady_ready hs _

theorem exec_showColor_ready (color : Word) {s : State} {r : ReadyStrip} (hs : s.strip = .ready r)
    (htx : s.transmitter = .completes) :
    exec (.showColor color) s = .next
      { s with
        strip := .ready (fillPixels (scaleTriplet color s.brightness) r.pixelCount.toNat 0 r)
        trace := s.trace ++ fillEvents (scaleTriplet color s.brightness) r.pixelCount.toNat 0 r
        responses := s.responses ++ [⟨.ok, none⟩] } := by
  change execShowColor color s = _
  rw [execShowColor, whenReady_ready hs, fillAndTransmit_eq _ _ _ _ _ hs,
    finishTransmits_completes (by simpa using htx)]
  rfl

/-! ### What is stored (R150, R154) -/

theorem wholeBuffer_freshStrip (pin b : Word) :
    wholeBuffer (freshStrip pin (lengthOperand b)) = List.replicate (3 * lengthOperand b) 0 := by
  simp [wholeBuffer_eq_map, freshStrip_pixelCount, Memory.unlisted]

/-- R90, R162: the offset of an index that is not negative. -/
theorem pixelOffset_indexOperand {a : Word} (h : 0 ≤ a.toInt) : (pixelOffset (indexOperand a) : Int) = 3 * a.toInt := by
  simp only [pixelOffset, indexOperand, Config.bytesPerPixel]
  omega

/-- R133, R154: the pixel's bytes are the scaled green, red and blue channels, in that order. -/
theorem read_writePixel_scaleTriplet (i : Nat) (color : Word) (br : Byte) {r : ReadyStrip} (h : Memory.wf r.buf) :
    (Memory.read (writePixel i (scaleTriplet color br) r).buf (pixelOffset i)).toNat =
      color.toNat / 256 % 256 * br.toNat / 255 ∧
    (Memory.read (writePixel i (scaleTriplet color br) r).buf (pixelOffset i + 1)).toNat =
      color.toNat / 65536 % 256 * br.toNat / 255 ∧
    (Memory.read (writePixel i (scaleTriplet color br) r).buf (pixelOffset i + 2)).toNat =
      color.toNat % 256 * br.toNat / 255 := by
  have hread : ∀ k < 3,
      (Memory.read (writePixel i (scaleTriplet color br) r).buf (pixelOffset i + k)).toNat =
        [color.toNat / 256 % 256 * br.toNat / 255, color.toNat / 65536 % 256 * br.toNat / 255,
         color.toNat % 256 * br.toNat / 255].getD k 0 := by
    intro k hk
    rw [read_writePixel_inside i _ h hk, ← scaleTriplet_toNat]
    exact (List.getD_map (f := BitVec.toNat) _ 0).symm
  exact ⟨hread 0 (by decide), hread 1 (by decide), hread 2 (by decide)⟩

/-- The loop writes the buffer and nothing else of the strip. -/
theorem update_buf_fillPixels (t : List Byte) (k i : Nat) (r : ReadyStrip) :
    { r with buf := (fillPixels t k i r).buf } = fillPixels t k i r := by
  induction k generalizing i r with
  | zero => rfl
  | succ k ih => exact ih (i + 1) (writePixel i t r)

/-! ### What is transmitted (R31, R158) -/

theorem transmitEvent_eq_map (r : ReadyStrip) :
    transmitEvent r =
      .transmit ((List.range (3 * r.pixelCount.toNat)).map fun a => Memory.read r.buf a) r.pin := by
  rw [transmitEvent, wholeBuffer_eq_map]

section fill
variable {t : List Byte} {r : ReadyStrip} (ht : t.length = 3) (h : Memory.wf r.buf)
include ht h

/-- R158: with `k` pixels filled, the bytes below `3 * k` are new and the others old. -/
theorem read_fillPixels_zero (k a : Nat) :
    Memory.read (fillPixels t k 0 r).buf a = if a < 3 * k then t.getD (a % 3) 0 else Memory.read r.buf a := by
  simp [read_fillPixels t ht k 0 h]

theorem transmitEvent_fillPixels (k : Nat) :
    transmitEvent (fillPixels t k 0 r) =
      .transmit ((List.range (3 * r.pixelCount.toNat)).map fun a =>
        if a < 3 * k then t.getD (a % 3) 0 else Memory.read r.buf a) r.pin := by
  simp only [transmitEvent_eq_map, fillPixels_pixelCount, fillPixels_pin, read_fillPixels_zero ht h]

/-- The last transmit: no old byte is left. -/
theorem transmitEvent_fillPixels_all :
    transmitEvent (fillPixels t r.pixelCount.toNat 0 r) =
      .transmit ((List.range (3 * r.pixelCount.toNat)).map fun a => t.getD (a % 3) 0) r.pin := by
  rw [transmitEvent_fillPixels ht h]
  congr 1
  exact List.map_congr_left fun a ha => if_pos (List.mem_range.1 ha)

end fill

/-! ### The statements -/

/-- Settles O27: in range the buffer is that of `writePixel`, whose reads inside and outside the pixel are known. -/
theorem setPixelStoresAndTransmits : Obligations.SetPixelStoresAndTransmits := by
  refine ⟨fun w hop => decode_of_assigned (m := .SET_PIXEL) hop, ?_,
    fun index color s r hs hout => exec_setPixel_outOfRange color hs ((indexInRange_eq_false_iff _ _).2 hout),
    fun index color s hs => exec_setPixel_uninitialized index color hs⟩
  intro index color s r hs hbuf htx h0 hlt
  obtain ⟨hgreen, hred, hblue⟩ := read_writePixel_scaleTriplet (indexOperand index) color s.brightness hbuf
  refine ⟨(writePixel (indexOperand index) (scaleTriplet color s.brightness) r).buf, ?_, hgreen, hred, hblue,
    fun a ha => read_writePixel_outside _ _ r ha, pixelOffset_indexOperand h0⟩
  rw [exec_setPixel_inRange color hs ((indexInRange_iff _ _).2 ⟨h0, hlt⟩) htx, storeAndTransmit, transmitEvent_eq_map]
  rfl

/-- Settles O29: the loop leaves the strip of `fillPixels` and appends `fillEvents`, whose `k`-th transmit carries the
strip with `k` pixels filled. -/
theorem showColorFillsAndTransmits : Obligations.ShowColorFillsAndTransmits := by
  refine ⟨fun w hop => decode_of_assigned (m := .SHOW_COLOR) hop, fun color s r hs hbuf htx => ?_,
    fun color s hs => exec_uninitialized rfl hs⟩
  have ht : (scaleTriplet color s.brightness).length = 3 := scaleTriplet_length _ _
  refine ⟨(fillPixels (scaleTriplet color s.brightness) r.pixelCount.toNat 0 r).buf, ?_,
    read_fillPixels_zero ht hbuf r.pixelCount.toNat⟩
  rw [exec_showColor_ready color hs htx, fillEvents_eq_map, transmitEvent_fillPixels_all ht hbuf]
  simp only [transmitEvent_fillPixels ht hbuf, List.append_assoc, update_buf_fillPixels]

/-- Settles O23: a length that fits replaces the strip by a fresh one, whose buffer lists no byte; a longer one only
raises. -/
theorem initReplacesTheStrip : Obligations.InitReplacesTheStrip := by
  refine ⟨fun w hop => decode_of_assigned (m := .INIT) hop, fun pin length s hfits => ?_, fun pin length s hlong => ?_⟩
  · rw [← lengthOperand_toInt] at hfits ⊢
    refine ⟨freshStrip pin (lengthOperand length), exec_init_fits pin (by omega), rfl, ?_,
      wholeBuffer_freshStrip pin length, fun a _ => rfl⟩
    rw [freshStrip_pixelCount]
  · rw [← lengthOperand_toInt] at hlong
    exact exec_init_tooLong pin (by omega)

/-- Settles O26: the byte stored is the operand's low byte. -/
theorem setBrightnessStoresLowByte : Obligations.SetBrightnessStoresLowByte := by
  refine ⟨fun w hop => decode_of_assigned (m := .SET_BRIGHTNESS) hop, fun level s r hs => ?_,
    fun level s hs => exec_uninitialized rfl hs⟩
  exact ⟨low8 level, exec_setBrightness_ready level hs, low8_toNat level⟩

/-- Settles O31: the one event is the transmit of the strip as it stands. -/
theorem showTransmitsTheBuffer : Obligations.ShowTransmitsTheBuffer := by
  refine ⟨fun w hop => decode_of_assigned (m := .SHOW) hop, fun s r hs htx => ?_, fun s hs => exec_uninitialized rfl hs⟩
  rw [exec_showStrip_ready hs htx, transmitEvent_eq_map]
  rfl

end Sys2Proof.Machine
end

section
/-! Proofs of the family 60_exceptions.md: when a command raises each of its faults, in one definition, and that a fault
then is the only change (R181 to R187); which words are reserved, and the order of the checks (R184, R190). -/

namespace Sys2Proof.Machine

/-! ### The faults of a command (R181 to R183) -/

/-- When a command raises a fault. `ILLEGAL_COMMAND` is a word's and not a command's (R184), and `CONFIGURATION` is
reserved (R185). -/
def faultCondition (i : Instr) (s : State) : Status → Prop
  | .uninitializedUse => needsReady i = true ∧ s.strip = .uninitialized
  | .outOfRange => ∃ index color r, i = .setPixel index color ∧ s.strip = .ready r ∧
      (index.toInt < 0 ∨ (r.pixelCount.toNat : Int) ≤ index.toInt)
  | .capacity => ∃ pin length, i = .init pin length ∧ (s.params.maxPixels : Int) < max length.toInt 0
  | .ok | .illegalCommand | .configuration => False

theorem maxPixels_lt_lengthOperand_iff (n : Nat) (length : Word) :
    n < lengthOperand length ↔ (n : Int) < max length.toInt 0 := by
  rw [← lengthOperand_toInt, Int.ofNat_lt]

/-- A command that meets the condition of a fault raises it, and nothing else happens. -/
theorem exec_of_faultCondition {i : Instr} {s : State} {f : Status} (h : faultCondition i s f) :
    exec i s = .next (s.raise f) := by
  cases f with
  | ok | illegalCommand | configuration => exact h.elim
  | uninitializedUse =>
    obtain ⟨hi, hs⟩ := h
    exact exec_uninitialized hi hs
  | outOfRange =>
    obtain ⟨index, color, r, rfl, hs, hout⟩ := h
    exact exec_setPixel_outOfRange color hs ((indexInRange_eq_false_iff _ _).2 hout)
  | capacity =>
    obtain ⟨pin, length, rfl, hlong⟩ := h
    exact exec_init_tooLong pin ((maxPixels_lt_lengthOperand_iff _ _).2 hlong)

/-- A command that completes answers `OK`, or raises a fault whose condition it meets. -/
theorem exec_ok_or_raise {i : Instr} {s t : State} (h : exec i s = .next t) :
    (∃ v, t.responses = s.responses ++ [⟨.ok, v⟩]) ∨ ∃ f, faultCondition i s f ∧ t = s.raise f := by
  cases exec_effect h with
  | result | init | brightness | pixel | fill | flush => exact .inl ⟨_, rfl⟩
  | uninitialized _ hi hs => exact .inr ⟨.uninitializedUse, ⟨hi, hs⟩, rfl⟩
  | capacity pin length hlong =>
    exact .inr ⟨.capacity, ⟨pin, length, rfl, (maxPixels_lt_lengthOperand_iff _ _).1 hlong⟩, rfl⟩
  | outOfRange index color r hs hi =>
    exact .inr ⟨.outOfRange, ⟨index, color, r, rfl, hs, (indexInRange_eq_false_iff _ _).1 hi⟩, rfl⟩

/-- A response with a fault's status comes from raising that fault. -/
theorem exec_faulted {i : Instr} {s t : State} {f : Status} {v : Option Word} (h : exec i s = .next t)
    (hresp : t.responses = s.responses ++ [⟨f, v⟩]) (hf : f ≠ .ok) : faultCondition i s f ∧ t = s.raise f := by
  obtain ⟨v', hok⟩ | ⟨f', hcond, rfl⟩ := exec_ok_or_raise h
  · obtain ⟨rfl, -⟩ : Status.ok = f ∧ v' = v := by simpa [hok] using hresp
    exact absurd rfl hf
  · obtain ⟨rfl, -⟩ : f' = f ∧ none = v := by simpa using hresp
    exact ⟨hcond, rfl⟩

/-- The fault answered and its condition are the same thing. -/
theorem exec_faulted_iff {i : Instr} {s t : State} {f : Status} (h : exec i s = .next t) (hf : f ≠ .ok) :
    t.responses = s.responses ++ [⟨f, none⟩] ↔ faultCondition i s f := by
  refine ⟨fun hresp => (exec_faulted h hresp hf).1, fun hcond => ?_⟩
  rw [exec_of_faultCondition hcond] at h
  cases h
  rfl

/-! ### The step on a command word (R184, R190) -/

section word
variable {s : State} {w : CmdWord} {rest : List HostInput} (h : s.inputs = .command w :: rest)
include h

theorem step_of_opcode (m : Mnemonic) (hop : w.extractLsb' 96 8 = m.code) :
    step s = exec (Instr.ofFields m (fieldA w) (fieldB w) (fieldC w)) (s.setInputs rest) := by
  rw [step_word h, runWord_command (decode_of_assigned hop)]

theorem step_of_reserved (hop : w.extractLsb' 96 8 ∉ assignedOpcodes) :
    step s = .next ((s.setInputs rest).raise .illegalCommand) := by
  have hnone : mnemonicOfCode (opField w) = none := by
    by_contra hsome
    obtain ⟨m, hm⟩ := mnemonicOfCode_ne_none_iff.1 hsome
    have hassigned : m.code ∈ assignedOpcodes := by cases m <;> decide
    rw [hm] at hassigned
    exact hop hassigned
  rw [step_word h, runWord_reserved (decode_of_reserved hnone)]

/-- A word of the mnemonic `m` raises the fault whose condition its command meets. -/
theorem step_raises (m : Mnemonic) (hop : w.extractLsb' 96 8 = m.code) {f : Status}
    (hf : faultCondition (Instr.ofFields m (fieldA w) (fieldB w) (fieldC w)) (s.setInputs rest) f) :
    ∃ t, step s = .next t ∧ t.responses = s.responses ++ [⟨f, none⟩] :=
  ⟨_, (step_of_opcode h m hop).trans (exec_of_faultCondition hf), rfl⟩

/-- A word that is answered is answered `OK`, or with a fault that is not `CONFIGURATION`. -/
theorem step_word_ok_or_raise {t : State} (ht : step s = .next t) :
    (∃ v, t.responses = s.responses ++ [⟨.ok, v⟩]) ∨
      ∃ f, f ≠ .configuration ∧ t = (s.setInputs rest).raise f := by
  obtain ⟨i, -, hi⟩ | ⟨op, -, rfl⟩ := step_word_next h ht
  · obtain hok | ⟨f, hcond, rfl⟩ := exec_ok_or_raise hi
    · exact .inl hok
    · exact .inr ⟨f, by rintro rfl; exact hcond, rfl⟩
  · exact .inr ⟨.illegalCommand, by decide, rfl⟩

end word

/-- The opcodes of the strip commands other than `INIT` (R81) select commands that need the strip. -/
theorem needsReady_of_opcode {op : Byte} (hop : op ∈ [(0x11 : Byte), 0x12, 0x13, 0x14]) :
    ∃ m : Mnemonic, op = m.code ∧ ∀ a b c, needsReady (Instr.ofFields m a b c) = true := by
  simp only [List.mem_cons, List.not_mem_nil, or_false] at hop
  obtain rfl | rfl | rfl | rfl := hop
  · exact ⟨.SET_BRIGHTNESS, rfl, fun _ _ _ => rfl⟩
  · exact ⟨.SET_PIXEL, rfl, fun _ _ _ => rfl⟩
  · exact ⟨.SHOW_COLOR, rfl, fun _ _ _ => rfl⟩
  · exact ⟨.SHOW, rfl, fun _ _ _ => rfl⟩

/-! ### The statements -/

/-- Settles O8: a reserved opcode is no mnemonic's code, and no command meets a condition for `ILLEGAL_COMMAND`. -/
theorem reservedOpcodeRaisesIllegalCommand : Obligations.ReservedOpcodeRaisesIllegalCommand :=
  ⟨fun _ _ _ h hop => step_of_reserved h hop, fun _ _ _ h hresp => (exec_faulted h hresp (by decide)).1⟩

/-- Settles O24: the condition of `CAPACITY`, and a signed 32-bit length is at most `2^31 - 1`. -/
theorem capacityRaisedOnlyByInit : Obligations.CapacityRaisedOnlyByInit := by
  refine ⟨fun i s t h => exec_faulted_iff h (by decide), fun i s t h hresp => (exec_faulted h hresp (by decide)).2,
    fun length => ?_⟩
  rw [← lengthOperand_toInt]
  exact Int.ofNat_le.2 (lengthOperand_le length)

/-- Settles O33: a response whose status is not `OK` comes from `raise`. -/
theorem faultChangesNothing : Obligations.FaultChangesNothing := by
  intro s t w rest h ht
  obtain ⟨v, hok⟩ | ⟨f, -, rfl⟩ := step_word_ok_or_raise h ht
  · exact ⟨⟨.ok, v⟩, hok, fun hne => absurd rfl hne⟩
  · exact ⟨⟨f, none⟩, rfl, fun _ => ⟨rfl, rfl⟩⟩

/-- Settles O35: the condition of `UNINITIALIZED_USE`, read both ways. -/
theorem uninitializedUseExactly : Obligations.UninitializedUseExactly :=
  ⟨fun _ _ hi hs => exec_uninitialized hi hs, fun _ _ _ h hresp => (exec_faulted h hresp (by decide)).1⟩

/-- Settles O36: the condition of `OUT_OF_RANGE`. -/
theorem outOfRangeExactly : Obligations.OutOfRangeExactly :=
  ⟨fun _ _ _ h => exec_faulted_iff h (by decide), fun _ _ _ h hresp => (exec_faulted h hresp (by decide)).2⟩

/-- Settles O37: no word raises `CONFIGURATION`, and a negative length is 0 pixels, which always fit. -/
theorem configurationNeverRaised : Obligations.ConfigurationNeverRaised := by
  refine ⟨fun s t w rest h ht v hresp => ?_, fun pin length s hneg => ?_⟩
  · obtain ⟨v', hok⟩ | ⟨f, hf, rfl⟩ := step_word_ok_or_raise h ht
    · simp [hok] at hresp
    · simp [hf] at hresp
  · have hzero : lengthOperand length = 0 := by simp only [lengthOperand]; omega
    refine ⟨_, _, exec_init_fits pin (hzero ▸ Nat.zero_le _), rfl, ?_, rfl⟩
    rw [hzero]
    rfl

/-- Settles O38: the decoder knows a reserved opcode without the state; after it, each clause is the condition of its
fault. -/
theorem checksInOrder : Obligations.ChecksInOrder := by
  intro s w rest h
  refine ⟨fun hop => ⟨_, step_of_reserved h hop, rfl⟩, fun hop hs => ?_,
    fun hop hlong => step_raises h .INIT hop (f := .capacity) ⟨_, _, rfl, hlong⟩, fun hop r hs hout => ?_⟩
  · obtain ⟨m, hm, hready⟩ := needsReady_of_opcode hop
    exact step_raises h m hm (f := .uninitializedUse) ⟨hready _ _ _, hs⟩
  · exact step_raises h .SET_PIXEL hop (f := .outOfRange) ⟨_, _, r, rfl, hs, by simp only [fieldA]; omega⟩

end Sys2Proof.Machine
end

section
/-! Proofs about the command word and the assembler (30_encoding.md): the encoder and the decoder against each other
(R80 to R84), by the four fields of a word, and what the assembler accepts and places (R93, R94). -/

namespace Sys2Proof

open Machine (usedBits)

/-! ### The fields of a word (R80) -/

theorem cmdWord_fields (w : CmdWord) : cmdWord (opField w) (fieldA w) (fieldB w) (fieldC w) = w := by
  simp only [cmdWord, opField, fieldA, fieldB, fieldC]; ext i hi; simp; grind

theorem opField_and (w v : CmdWord) : opField (w &&& v) = opField w &&& opField v := BitVec.extractLsb'_and
theorem fieldA_and (w v : CmdWord) : fieldA (w &&& v) = fieldA w &&& fieldA v := BitVec.extractLsb'_and
theorem fieldB_and (w v : CmdWord) : fieldB (w &&& v) = fieldB w &&& fieldB v := BitVec.extractLsb'_and
theorem fieldC_and (w v : CmdWord) : fieldC (w &&& v) = fieldC w &&& fieldC v := BitVec.extractLsb'_and

/-! ### Decoding what was encoded (R81, R83) -/

theorem ofFields_operands (i : Instr) : Instr.ofFields i.mnemonic i.operandA i.operandB i.operandC = i := by
  cases i <;> rfl

@[simp] theorem ofFields_mnemonic (m : Mnemonic) (a b c : Word) : (Instr.ofFields m a b c).mnemonic = m := by
  cases m <;> rfl

theorem decode_encode (i : Instr) : decode (encode i) = .command i := by
  have hop : opField (encode i) = i.mnemonic.code := opField_cmdWord _ _ _ _
  rw [decode_of_assigned hop, encode, fieldA_cmdWord, fieldB_cmdWord, fieldC_cmdWord, ofFields_operands]

theorem encode_injective {i j : Instr} (h : encode i = encode j) : i = j := by
  simpa [decode_encode] using congrArg decode h

/-! ### Encoding what was decoded (R82) -/

/-- A word that decodes to a command has its opcode, and the command is the row of that opcode. -/
theorem decode_eq_command {w : CmdWord} {i : Instr} (h : decode w = .command i) :
    opField w = i.mnemonic.code ∧ i = Instr.ofFields i.mnemonic (fieldA w) (fieldB w) (fieldC w) := by
  cases hm : mnemonicOfCode (opField w) with
  | none => rw [decode_of_reserved hm] at h; cases h
  | some m =>
    have hop : opField w = m.code := (mnemonicOfCode_eq_some hm).symm
    rw [decode_of_assigned hop] at h
    cases h
    rw [ofFields_mnemonic]
    exact ⟨hop, rfl⟩

theorem opField_and_usedBits (w : CmdWord) (m : Mnemonic) : opField (w &&& usedBits m) = opField w := by
  have hff : opField (usedBits m) = BitVec.allOnes 8 := by cases m <;> rfl
  rw [opField_and, hff, BitVec.and_allOnes]

section operands
variable (m : Mnemonic) (a b c : Word)

/-- A row keeps the field `A` whole, or ignores it and encodes zero: the two cases of its mask. -/
theorem operandA_ofFields : (Instr.ofFields m a b c).operandA = a &&& fieldA (usedBits m) := by
  cases m with
  | SHOW => exact BitVec.and_zero.symm
  | PACK | UNPACK_R | UNPACK_G | UNPACK_B | INIT | SET_BRIGHTNESS | SET_PIXEL | SHOW_COLOR =>
    exact BitVec.and_allOnes.symm

theorem operandB_ofFields : (Instr.ofFields m a b c).operandB = b &&& fieldB (usedBits m) := by
  cases m with
  | PACK | INIT | SET_PIXEL => exact BitVec.and_allOnes.symm
  | UNPACK_R | UNPACK_G | UNPACK_B | SET_BRIGHTNESS | SHOW_COLOR | SHOW => exact BitVec.and_zero.symm

theorem operandC_ofFields : (Instr.ofFields m a b c).operandC = c &&& fieldC (usedBits m) := by
  cases m with
  | PACK => exact BitVec.and_allOnes.symm
  | UNPACK_R | UNPACK_G | UNPACK_B | INIT | SET_BRIGHTNESS | SET_PIXEL | SHOW_COLOR | SHOW =>
    exact BitVec.and_zero.symm

end operands

theorem encode_of_decode {w : CmdWord} {i : Instr} (h : decode w = .command i) :
    encode i = w &&& usedBits i.mnemonic := by
  obtain ⟨hop, hi⟩ := decode_eq_command h
  rw [← cmdWord_fields (w &&& usedBits i.mnemonic), opField_and_usedBits, fieldA_and, fieldB_and, fieldC_and, hop,
    ← operandA_ofFields _ _ (fieldB w) (fieldC w), ← operandB_ofFields _ (fieldA w) _ (fieldC w),
    ← operandC_ofFields _ (fieldA w) (fieldB w), ← hi, encode]

/-- R82: what a word decodes to is told by the bits its row uses. -/
theorem decode_eq_of_usedBits_eq {w w' : CmdWord} {i : Instr} (h : decode w = .command i)
    (hw : w &&& usedBits i.mnemonic = w' &&& usedBits i.mnemonic) : decode w' = .command i := by
  have hop : opField w' = i.mnemonic.code := by
    rw [← opField_and_usedBits w' i.mnemonic, ← hw, opField_and_usedBits, (decode_eq_command h).1]
  have hw' := decode_of_assigned hop
  have henc := encode_of_decode hw'
  rw [ofFields_mnemonic, ← hw, ← encode_of_decode h] at henc
  rw [hw', encode_injective henc]

/-! ### The assembler (R93, R94) -/

theorem wf_number_iff (v : Int) : (AsmOperand.number v).wf = true ↔ -(2 ^ 31) ≤ v ∧ v ≤ 2 ^ 32 - 1 := by
  simp only [AsmOperand.wf, Bool.and_eq_true, decide_eq_true_eq]

theorem asmCommand_wf_iff (c : AsmCommand) :
    c.wf = true ↔ c.operands.length = c.mnemonic.arity ∧ ∀ o ∈ c.operands, o.wf = true := by
  simp only [AsmCommand.wf, Bool.and_eq_true, decide_eq_true_eq, List.all_eq_true]

/-- R94: one operand out of range and nothing is assembled. -/
theorem assemble_eq_none {c : AsmCommand} {o : AsmOperand} (ho : o ∈ c.operands) (hwf : ¬ o.wf = true) :
    assemble c = none :=
  if_neg fun h => hwf (((asmCommand_wf_iff c).1 h).2 o ho)

/-- R93: a form with as many operands as its mnemonic takes, each acceptable, is assembled, and they go to `A`, `B`, `C`
in the order they are written. -/
theorem assemble_form {m : Mnemonic} {operands : List AsmOperand} (hlen : operands.length = m.arity)
    (hwf : ∀ o ∈ operands, o.wf = true) :
    assemble ⟨m, operands⟩ = some (cmdWord m.code ((operands.map AsmOperand.field).getD 0 0)
      ((operands.map AsmOperand.field).getD 1 0) ((operands.map AsmOperand.field).getD 2 0)) :=
  if_pos ((asmCommand_wf_iff _).2 ⟨hlen, hwf⟩)

/-! ### The statements -/

/-- Settles O1: the four fields of the encoded word are the command's opcode and operands, and the row of the opcode
puts them together again. -/
theorem decodeOfEncodeIsTheCommand : Obligations.DecodeOfEncodeIsTheCommand :=
  decode_encode

/-- Settles O2: field by field, a row keeps an operand or encodes zero for it, as its mask says; the second clause
follows since commands with the same word are the same. -/
theorem encodeOfDecodedKeepsUsedBits : Obligations.EncodeOfDecodedKeepsUsedBits :=
  ⟨fun _ _ h => encode_of_decode h, fun _ _ _ h hw => decode_eq_of_usedBits_eq h hw⟩

/-- Settles O5: in its range an integer is its field modulo `2^32`, unsigned or signed; outside both ranges the operand
is not acceptable, and acceptable operands in the right number are assembled. -/
theorem assemblerPlacesOperands : Obligations.AssemblerPlacesOperands := by
  refine ⟨fun v h0 hle => ?_, fun v hge hneg => ?_, fun c v hv hout => ?_, fun c hlen hrange => ?_⟩
  · simp only [AsmOperand.field, BitVec.toNat_ofInt]
    omega
  · exact BitVec.toInt_ofInt_eq_self (by decide) hge (by omega)
  · exact assemble_eq_none hv fun hwf => by rw [wf_number_iff] at hwf; omega
  · have hwf : ∀ o ∈ c.operands, o.wf = true := by
      intro o ho
      cases o with
      | number v => exact (wf_number_iff v).2 (hrange v ho)
      | color c => rfl
    exact congrArg Option.isSome (assemble_form hlen hwf)

/-- Settles O4: the decoder evaluated on the eleven words. -/
theorem writtenOutWordsDecode : Obligations.WrittenOutWordsDecode := by
  unfold Obligations.WrittenOutWordsDecode
  decide

/-- Settles O6: each form has the operands its mnemonic takes, and they stand in the fields in which the command's
encoding has them. -/
theorem assembledFormsEncodeAsTabled : Obligations.AssembledFormsEncodeAsTabled := by
  intro x y z hx hy hz
  have one : ∀ o ∈ [x], o.wf = true := by simp [hx]
  have two : ∀ o ∈ [x, y], o.wf = true := by simp [hx, hy]
  have three : ∀ o ∈ [x, y, z], o.wf = true := by simp [hx, hy, hz]
  exact ⟨assemble_form rfl three, assemble_form rfl one, assemble_form rfl one, assemble_form rfl one,
    assemble_form rfl two, assemble_form rfl one, assemble_form rfl two, assemble_form rfl one,
    assemble_form rfl (by simp)⟩

end Sys2Proof
end

section
/-! Proofs about one step: what it does with the host's next input (10_state.md, 70_reset_and_hazards.md), and that it
keeps the invariant, operation by operation and then by the ways a command can complete. -/

namespace Sys2Proof.Machine

/-! ### The invariant, operation by operation (R25, R28, R30, R31, R33) -/

theorem invariant_resetInput (s : State) : Invariant s.resetInput :=
  ⟨rfl, fun _ => rfl, by simp, by simp⟩

theorem Invariant.setInputs {s : State} (h : Invariant s) (inputs : List HostInput) : Invariant (s.setInputs inputs) :=
  ⟨h.strip, h.brightness, h.responses, h.trace⟩

theorem Invariant.answer {s : State} (h : Invariant s) {r : Response} (hr : r.wf = true) : Invariant (s.answer r) := by
  refine ⟨h.strip, h.brightness, fun x hx => ?_, h.trace⟩
  obtain hx | rfl : x ∈ s.responses ∨ x = r := by simpa using hx
  · exact h.responses x hx
  · exact hr

/-- What the strip commands do on success: a well-formed `Ready` strip left, well-formed events and an `OK`. -/
theorem Invariant.completed {s : State} (h : Invariant s) {strip : Strip} {events : List Event} (br : Byte)
    (hready : strip ≠ .uninitialized) (hwf : strip.wf s.params = true) (hev : ∀ e ∈ events, e.wf s.params = true) :
    Invariant
      { s with
        strip := strip, brightness := br, trace := s.trace ++ events
        responses := s.responses ++ [⟨.ok, none⟩] } := by
  refine Invariant.answer (s := { s with strip := strip, brightness := br, trace := s.trace ++ events })
    ⟨hwf, fun hun => absurd hun hready, h.responses, fun e he => ?_⟩ rfl
  obtain he | he := List.mem_append.1 he
  · exact h.trace e he
  · exact hev e he

theorem freshStrip_wf (pin : Word) {length : Word} {p : Params} (h : lengthOperand length ≤ p.maxPixels) :
    Strip.wf p (.ready (freshStrip pin (lengthOperand length))) = true := by
  rw [Strip.wf_ready_iff, freshStrip_pixelCount]
  exact ⟨h, lengthOperand_le length, Memory.wf_nil, by simp⟩

theorem fillPixels_strip_wf {p : Params} {r : ReadyStrip} {t : List Byte} {k i : Nat} (ht : t.length = 3)
    (hk : i + k ≤ r.pixelCount.toNat) (h : Strip.wf p (.ready r) = true) :
    Strip.wf p (.ready (fillPixels t k i r)) = true := by
  obtain ⟨hmax, hlimit, hbuf, hin⟩ := (Strip.wf_ready_iff p r).1 h
  rw [Strip.wf_ready_iff, fillPixels_pixelCount]
  exact ⟨hmax, hlimit, fillPixels_wf t k i hbuf, fillPixels_within t ht k i hin (by omega)⟩

/-- Storing one pixel is filling from it, one pixel far. -/
theorem writePixel_strip_wf {p : Params} {r : ReadyStrip} {t : List Byte} {i : Nat} (ht : t.length = 3)
    (hi : i < r.pixelCount.toNat) (h : Strip.wf p (.ready r) = true) :
    Strip.wf p (.ready (writePixel i t r)) = true :=
  fillPixels_strip_wf (k := 1) ht hi h

theorem transmitEvent_wf_of_strip_wf {p : Params} {r : ReadyStrip} (h : Strip.wf p (.ready r) = true) :
    (transmitEvent r).wf p = true :=
  transmitEvent_wf ((Strip.wf_ready_iff p r).1 h).1

/-- Every event of the loop is a transmit of the strip with some pixels written. -/
theorem mem_fillEvents {t : List Byte} {k i : Nat} {r : ReadyStrip} {e : Event} (h : e ∈ fillEvents t k i r) :
    ∃ j ≤ k, e = transmitEvent (fillPixels t j i r) := by
  rw [fillEvents_eq_map, List.mem_append, List.mem_map, List.mem_singleton] at h
  obtain ⟨j, hj, rfl⟩ | rfl := h
  · exact ⟨j + 1, List.mem_range.1 hj, rfl⟩
  · exact ⟨k, Nat.le_refl k, rfl⟩

theorem exec_keeps_invariant {i : Instr} {s t : State} (hinv : Invariant s) (h : exec i s = .next t) :
    Invariant t := by
  cases exec_effect h with
  | result | uninitialized | capacity | outOfRange => exact hinv.answer rfl
  | init pin length hfits => exact hinv.completed _ nofun (freshStrip_wf pin hfits) (by simp [Event.wf])
  | brightness level r hs =>
    simpa using hinv.completed (events := []) (low8 level) (by simp [hs]) hinv.strip (by simp)
  | pixel index color r hs hi =>
    have hwf := writePixel_strip_wf (scaleTriplet_length color s.brightness) (indexOperand_lt hi) (hs ▸ hinv.strip)
    exact hinv.completed _ nofun hwf (by simpa using transmitEvent_wf_of_strip_wf hwf)
  | fill color r hs =>
    have hwf (j : Nat) (hj : j ≤ r.pixelCount.toNat) :=
      fillPixels_strip_wf (scaleTriplet_length color s.brightness) ((Nat.zero_add j).symm ▸ hj) (hs ▸ hinv.strip)
    refine hinv.completed _ nofun (hwf _ (Nat.le_refl _)) fun e he => ?_
    obtain ⟨j, hj, rfl⟩ := mem_fillEvents he
    exact transmitEvent_wf_of_strip_wf (hwf j hj)
  | flush r hs =>
    have hwf : Strip.wf s.params (.ready r) = true := hs ▸ hinv.strip
    exact hinv.completed _ (by simp [hs]) hinv.strip (by simpa using transmitEvent_wf_of_strip_wf hwf)

/-! ### The word that `withFetchWord` presents -/

theorem decode_of_decodeTableWord {nbits w : Nat} {i : Instr} (h : decodeTableWord nbits w = some i) :
    decode (tableWord nbits w) = .command i := by
  rw [decodeTableWord] at h
  split at h
  · cases hd : decode (tableWord nbits w) with
    | command j => simpa [hd] using h
    | reservedOpcode op => simp [hd] at h
  · cases h

/-! ### The statements -/

/-- Settles O49: the reset input gives the state of R37, an idle step nothing, a reserved word a fault's response, and a
command one of its effects. -/
theorem stepKeepsTheInvariant : Obligations.StepKeepsTheInvariant := by
  intro s t hinv h
  match hin : s.inputs with
  | [] => cases (step_idle hin).symm.trans h; exact hinv
  | .reset :: rest => cases (step_reset hin).symm.trans h; exact invariant_resetInput _
  | .command w :: rest =>
    obtain ⟨i, -, hi⟩ | ⟨op, -, rfl⟩ := step_word_next hin h
    · exact exec_keeps_invariant (hinv.setInputs rest) hi
    · exact (hinv.setInputs rest).answer rfl

/-- Settles O48: reset is the state that the reset input gives from reset. -/
theorem resetStateMeetsTheInvariant : Obligations.ResetStateMeetsTheInvariant :=
  invariant_resetInput State.reset

/-- Settles O7: taking the word put in front leaves the inputs as they were. -/
theorem stepRunsTheDecodedCommand : Obligations.StepRunsTheDecodedCommand := by
  refine ⟨fun s w rest i hin hd => ?_, fun s nbits w i hd => ?_⟩
  · rw [step_word hin, runWord_command hd]
    rfl
  · have hin : (s.withFetchWord nbits w).inputs = .command (tableWord nbits w) :: s.inputs := rfl
    rw [step_word hin, runWord_command (decode_of_decodeTableWord hd)]
    rfl

/-- Settles O9: the step on a reset input is `resetInput`, whose fields are known. -/
theorem resetInputGivesTheResetState : Obligations.ResetInputGivesTheResetState :=
  fun _ _ hin => ⟨_, step_reset hin, rfl, rfl, rfl, rfl, rfl⟩

/-- Settles O10: the fields of the reset state. -/
theorem resetStateAsSpecified : Obligations.ResetStateAsSpecified :=
  ⟨rfl, rfl, rfl, rfl, rfl⟩

/-- Settles O11: with no input to take the step answers the same state. -/
theorem waitsForACommand : Obligations.WaitsForACommand :=
  fun _ hin => step_idle hin

end Sys2Proof.Machine
end

section
/-! Proofs about every command: its one response, what it writes and what it keeps, the events it makes, what it reads,
and when it is stuck (10_state.md, 41_brightness_scaler.md, 60_exceptions.md, 70_reset_and_hazards.md). Each is a case
analysis over `Effect`, the ways a command can complete. -/

namespace Sys2Proof.Machine

/-! ### The codec (R118) -/

theorem exec_codec {i : Instr} (hi : isCodec i = true) : ∃ v : Word, ∀ s, exec i s = .next (s.respond (some v)) := by
  cases i with
  | pack | unpackR | unpackG | unpackB => exact ⟨_, fun _ => rfl⟩
  | init | setBrightness | setPixel | showColor | showStrip => cases hi

theorem isCodec_eq_false_of_needsReady {i : Instr} (hi : needsReady i = true) : isCodec i = false := by
  cases i with
  | pack | unpackR | unpackG | unpackB | init => cases hi
  | setBrightness | setPixel | showColor | showStrip => rfl

/-! ### The response (R30) -/

theorem exec_one_response {i : Instr} {s t : State} (h : exec i s = .next t) :
    ∃ resp : Response, t.responses = s.responses ++ [resp] ∧ resp.val.isSome = isCodec i ∧
      (isCodec i = true → resp.status = .ok) := by
  cases exec_effect h with
  | result _ v hi => exact ⟨_, rfl, hi.symm, fun _ => rfl⟩
  | uninitialized _ hi =>
    have hcodec := isCodec_eq_false_of_needsReady hi
    exact ⟨_, rfl, hcodec.symm, fun hc => by simp [hcodec] at hc⟩
  | capacity | init | brightness | outOfRange | pixel | fill | flush => exact ⟨_, rfl, rfl, nofun⟩

/-! ### What a command writes (R23, R24, R151) -/

/-- The model's own fields are no command's. -/
theorem exec_keeps_surroundings {i : Instr} {s t : State} (h : exec i s = .next t) :
    t.params = s.params ∧ t.inputs = s.inputs ∧ t.transmitter = s.transmitter := by
  cases exec_effect h <;> exact ⟨rfl, rfl, rfl⟩

theorem brightnessAfterInit_of_true {s : State} (h : s.params.initResetsBrightness = true) :
    brightnessAfterInit s = Config.brightnessDefault :=
  if_pos h

theorem brightnessAfterInit_of_false {s : State} (h : s.params.initResetsBrightness = false) :
    brightnessAfterInit s = s.brightness := by
  simp [brightnessAfterInit, h]

theorem exec_brightness_ne {i : Instr} {s t : State} (h : exec i s = .next t) (hne : t.brightness ≠ s.brightness) :
    i.mnemonic = .SET_BRIGHTNESS ∨ (i.mnemonic = .INIT ∧ s.params.initResetsBrightness = true) := by
  cases exec_effect h with
  | result | uninitialized | capacity | outOfRange | pixel | fill | flush => exact absurd rfl hne
  | brightness => exact .inl rfl
  | init =>
    refine .inr ⟨rfl, ?_⟩
    by_contra hparam
    exact hne (brightnessAfterInit_of_false (Bool.not_eq_true _ ▸ hparam))

theorem exec_strip_ne {i : Instr} {s t : State} (h : exec i s = .next t) (hne : t.strip ≠ s.strip) :
    i.mnemonic = .INIT ∨ i.mnemonic = .SET_PIXEL ∨ i.mnemonic = .SHOW_COLOR := by
  by_contra hnot
  simp only [not_or] at hnot
  exact hne (exec_strip_of_leavesStrip hnot h)

/-- R24: only an `INIT` that succeeds makes a strip `Ready`. -/
theorem exec_enters_ready {i : Instr} {s t : State} (h : exec i s = .next t) (hs : s.strip = .uninitialized)
    (ht : t.strip ≠ .uninitialized) :
    ∃ pin length, i = .init pin length ∧ t.responses = s.responses ++ [⟨.ok, none⟩] := by
  cases exec_effect h with
  | result | uninitialized | capacity | outOfRange | brightness | flush => exact absurd hs ht
  | init pin length => exact ⟨pin, length, rfl, rfl⟩
  | pixel _ _ r hr | fill _ r hr => simp [hs] at hr

/-- A `Ready` strip stays `Ready`, and no command but `INIT` binds it anew. -/
theorem exec_ready {i : Instr} {s t : State} {r : ReadyStrip} (h : exec i s = .next t) (hs : s.strip = .ready r) :
    ∃ r', t.strip = .ready r' ∧ (i.mnemonic ≠ .INIT → r'.pixelCount = r.pixelCount ∧ r'.pin = r.pin) := by
  cases exec_effect h with
  | result | capacity | brightness | outOfRange | flush => exact ⟨r, hs, fun _ => ⟨rfl, rfl⟩⟩
  | uninitialized _ _ hun => simp [hs] at hun
  | init => exact ⟨_, rfl, fun hne => absurd rfl hne⟩
  | pixel _ _ r' hr =>
    obtain rfl : r = r' := by simpa [hs] using hr
    exact ⟨_, rfl, fun _ => ⟨rfl, rfl⟩⟩
  | fill _ r' hr =>
    obtain rfl : r = r' := by simpa [hs] using hr
    exact ⟨_, rfl, fun _ => ⟨fillPixels_pixelCount _ _ _ _, fillPixels_pin _ _ _ _⟩⟩

theorem exec_keeps_ready {i : Instr} {s t : State} (h : exec i s = .next t) (hs : s.strip ≠ .uninitialized) :
    t.strip ≠ .uninitialized := by
  cases hr : s.strip with
  | uninitialized => exact absurd hr hs
  | ready r =>
    obtain ⟨r', ht, -⟩ := exec_ready h hr
    simp [ht]

/-! ### A pixel's bytes (R137) -/

theorem indexOperand_ne {index : Word} {p : Nat} (h0 : 0 ≤ index.toInt) (hp : index.toInt ≠ p) :
    indexOperand index ≠ p := by
  simp only [indexOperand]
  omega

theorem read_writePixel_other_pixel {i p k : Nat} {t : List Byte} (r : ReadyStrip) (ht : t.length = 3) (hp : i ≠ p)
    (hk : k < 3) : Memory.read (writePixel i t r).buf (3 * p + k) = Memory.read r.buf (3 * p + k) := by
  refine read_writePixel_outside i t r ?_
  simp only [pixelOffset, Config.bytesPerPixel, ht]
  omega

/-! ### Stuck, or answered (R194, U8) -/

/-- The commands that come to a transmit on the strip `r`. -/
def reachesTransmit (i : Instr) (r : ReadyStrip) : Prop :=
  i = .showStrip ∨ (∃ color, i = .showColor color) ∨
    ∃ index color, i = .setPixel index color ∧ 0 ≤ index.toInt ∧ index.toInt < r.pixelCount.toNat

/-- U8: the transmitter never completes, and the command comes to a transmit. -/
def stuck (i : Instr) (s : State) : Prop :=
  s.transmitter = .neverCompletes ∧ ∃ r, s.strip = .ready r ∧ reachesTransmit i r

theorem exec_of_stuck {i : Instr} {s : State} (h : stuck i s) : exec i s = .fault .transmitterNeverCompletes := by
  obtain ⟨htx, r, hs, rfl | ⟨color, rfl⟩ | ⟨index, color, rfl, hi⟩⟩ := h
  · change execShow s = _
    rw [execShow, whenReady_ready hs, finishTransmits_neverCompletes (by simpa using htx)]
  · change execShowColor color s = _
    rw [execShowColor, whenReady_ready hs, fillAndTransmit_eq _ _ _ _ _ hs,
      finishTransmits_neverCompletes (by simpa using htx)]
  · change execSetPixel index color s = _
    rw [execSetPixel, whenReady_ready hs, if_pos ((indexInRange_iff _ _).2 hi),
      finishTransmits_neverCompletes (by simpa using htx)]

/-- U8's other half: a command that is not stuck is answered. -/
theorem exec_of_not_stuck {i : Instr} {s : State} (h : ¬ stuck i s) : ∃ t, exec i s = .next t := by
  cases hneeds : needsReady i with
  | false =>
    cases i with
    | pack | unpackR | unpackG | unpackB => exact ⟨_, rfl⟩
    | init pin length =>
      obtain hlong | hfits := Nat.lt_or_ge s.params.maxPixels (lengthOperand length)
      · exact ⟨_, exec_init_tooLong pin hlong⟩
      · exact ⟨_, exec_init_fits pin hfits⟩
    | setBrightness | setPixel | showColor | showStrip => cases hneeds
  | true =>
    cases hs : s.strip with
    | uninitialized => exact ⟨_, exec_uninitialized hneeds hs⟩
    | ready r =>
      have completes (hi : reachesTransmit i r) : s.transmitter = .completes := by
        cases htx : s.transmitter with
        | completes => rfl
        | neverCompletes => exact absurd ⟨htx, r, hs, hi⟩ h
      cases i with
      | pack | unpackR | unpackG | unpackB | init => cases hneeds
      | setBrightness level => exact ⟨_, exec_setBrightness_ready level hs⟩
      | setPixel index color =>
        cases hi : indexInRange index r.pixelCount with
        | false => exact ⟨_, exec_setPixel_outOfRange color hs hi⟩
        | true =>
          have htx := completes (.inr (.inr ⟨index, color, rfl, (indexInRange_iff _ _).1 hi⟩))
          exact ⟨_, exec_setPixel_inRange color hs hi htx⟩
      | showColor color => exact ⟨_, exec_showColor_ready color hs (completes (.inr (.inl ⟨color, rfl⟩)))⟩
      | showStrip => exact ⟨_, exec_showStrip_ready hs (completes (.inl rfl))⟩

theorem transmitCount_ne_zero_of_stuck {i : Instr} {s : State} (h : stuck i s) : transmitCount 0 i ≠ 0 := by
  obtain ⟨-, r, -, rfl | ⟨color, rfl⟩ | ⟨index, color, rfl, -⟩⟩ := h
  · exact Nat.one_ne_zero
  · exact Nat.one_ne_zero
  · exact Nat.one_ne_zero

/-! ### What a command reads (R20, R32) -/

/-- The same machine with other inputs to come and another observation so far. -/
def State.observed (inputs : List HostInput) (responses : List Response) (trace : List Event) (s : State) : State :=
  { s with inputs := inputs, responses := responses, trace := trace }

/-- Whatever was observed before, the command gives the response and the events, and the rest of `t`. -/
def answersAlike (i : Instr) (s t : State) (resp : Response) (events : List Event) : Prop :=
  ∀ inputs responses trace,
    exec i (s.observed inputs responses trace) = .next (t.observed inputs (responses ++ [resp]) (trace ++ events))

theorem answersAlike_of_no_event {i : Instr} {s t : State} {resp : Response}
    (h : ∀ inputs responses trace,
      exec i (s.observed inputs responses trace) = .next (t.observed inputs (responses ++ [resp]) trace)) :
    answersAlike i s t resp [] := by
  intro inputs responses trace
  rw [List.append_nil]
  exact h inputs responses trace

theorem exec_answersAlike {i : Instr} {s t : State} (h : exec i s = .next t) :
    ∃ resp events, answersAlike i s t resp events := by
  cases exec_effect h with
  | result _ v hi =>
    obtain ⟨v', hv⟩ := exec_codec hi
    exact ⟨⟨.ok, some v'⟩, [], answersAlike_of_no_event fun _ _ _ => hv _⟩
  | uninitialized _ hi hs =>
    exact ⟨_, [], answersAlike_of_no_event fun _ _ _ => exec_uninitialized (s := s.observed _ _ _) hi hs⟩
  | capacity pin length hlong =>
    exact ⟨_, [], answersAlike_of_no_event fun _ _ _ => exec_init_tooLong (s := s.observed _ _ _) pin hlong⟩
  | outOfRange index color r hs hi =>
    exact ⟨_, [], answersAlike_of_no_event fun _ _ _ => exec_setPixel_outOfRange (s := s.observed _ _ _) color hs hi⟩
  | brightness level r hs =>
    exact ⟨_, [], answersAlike_of_no_event fun _ _ _ => exec_setBrightness_ready (s := s.observed _ _ _) level hs⟩
  | init pin length hfits =>
    exact ⟨_, [.pinWrite pin .low], fun _ _ _ => exec_init_fits (s := s.observed _ _ _) pin hfits⟩
  | pixel index color r hs hi htx =>
    exact ⟨_, [transmitEvent (writePixel (indexOperand index) (scaleTriplet color s.brightness) r)],
      fun inputs responses trace => exec_setPixel_inRange (s := s.observed inputs responses trace) color hs hi htx⟩
  | fill color r hs htx =>
    exact ⟨_, fillEvents (scaleTriplet color s.brightness) r.pixelCount.toNat 0 r,
      fun inputs responses trace => exec_showColor_ready (s := s.observed inputs responses trace) color hs htx⟩
  | flush r hs htx => exact ⟨_, [_], fun _ _ _ => exec_showStrip_ready (s := s.observed _ _ _) hs htx⟩

/-! ### The statements -/

/-- Settles O44: a codec command only responds, with a value that its operands give. -/
theorem codecResultIndependentOfState : Obligations.CodecResultIndependentOfState :=
  fun _ hi => exec_codec hi

/-- Settles O16: the ten values and their channels evaluated. -/
theorem namedColorsHaveTabledFields : Obligations.NamedColorsHaveTabledFields := by
  unfold Obligations.NamedColorsHaveTabledFields
  decide

/-- Settles O34: one response on every way to complete, with a value on that of the codec only. -/
theorem oneResponsePerCommand : Obligations.OneResponsePerCommand :=
  fun _ _ _ h => exec_one_response h

/-- Settles O25: a raised `CAPACITY` keeps the brightness, which is 255 before the first `INIT`; a successful `INIT`
leaves 255 or keeps it, by its parameter. -/
theorem initBrightnessByParameter : Obligations.InitBrightnessByParameter := by
  intro pin length s t h
  obtain ⟨hlong, rfl⟩ | ⟨hfits, rfl⟩ := execInit_cases h
  · refine ⟨fun _ => rfl, fun _ hle => ?_, fun hinv hs => hinv.brightness hs⟩
    exact absurd ((maxPixels_lt_lengthOperand_iff _ _).1 hlong) (not_lt.2 hle)
  · refine ⟨brightnessAfterInit_of_false, fun hparam _ => brightnessAfterInit_of_true hparam, fun hinv hs => ?_⟩
    cases hparam : s.params.initResetsBrightness with
    | false => exact (brightnessAfterInit_of_false hparam).trans (hinv.brightness hs)
    | true => exact brightnessAfterInit_of_true hparam

/-- Settles O39: an idle step keeps the strip, the reset input leaves `Ready`, and a command word does what its command
does. -/
theorem readyIsLeftOnlyByReset : Obligations.ReadyIsLeftOnlyByReset := by
  refine ⟨fun s t h hs ht => ?_, fun s t h hs ht => ?_⟩
  · match hin : s.inputs with
    | [] => cases (step_idle hin).symm.trans h; exact absurd ht hs
    | .reset :: rest => exact ⟨rest, rfl⟩
    | .command w :: rest =>
      obtain ⟨i, -, hi⟩ | ⟨op, -, rfl⟩ := step_word_next hin h
      · exact absurd ht (exec_keeps_ready hi hs)
      · exact absurd ht hs
  · match hin : s.inputs with
    | [] => cases (step_idle hin).symm.trans h; exact absurd hs ht
    | .reset :: rest => cases (step_reset hin).symm.trans h; exact absurd rfl ht
    | .command w :: rest =>
      obtain ⟨i, hd, hi⟩ | ⟨op, -, rfl⟩ := step_word_next hin h
      · obtain ⟨pin, length, rfl, hresp⟩ := exec_enters_ready hi hs ht
        exact ⟨w, rest, pin, length, rfl, hd, hresp⟩
      · exact absurd hs ht

/-- Settles O40: the columns one by one. -/
theorem eachItemWrittenOnlyByItsCommands : Obligations.EachItemWrittenOnlyByItsCommands := by
  intro i s t h
  obtain ⟨hparams, hinputs, htx⟩ := exec_keeps_surroundings h
  refine ⟨hparams, hinputs, htx, exec_brightness_ne h, exec_strip_ne h, fun hne hs => ?_, exec_keeps_ready h,
    fun hne r hs => ?_⟩
  · by_contra ht
    obtain ⟨pin, length, rfl, -⟩ := exec_enters_ready h hs ht
    exact hne rfl
  · obtain ⟨r', ht, hkeeps⟩ := exec_ready h hs
    exact ⟨r', ht, hkeeps hne⟩

/-- Settles O41: of the commands allowed only `SET_PIXEL` writes the buffer, and outside its own pixel it writes
nothing. -/
theorem pixelKeptUntilWrittenAgain : Obligations.PixelKeptUntilWrittenAgain := by
  intro i s t r p h hs hinit hcolor hother
  cases exec_effect h with
  | init => exact absurd rfl hinit
  | fill => exact absurd rfl hcolor
  | result | uninitialized | capacity | brightness | outOfRange | flush => exact ⟨r, hs, fun _ _ => rfl⟩
  | pixel index color r' hr hi =>
    obtain rfl : r = r' := by simpa [hs] using hr
    have hp := indexOperand_ne ((indexInRange_iff _ _).1 hi).1 (hother index color rfl)
    exact ⟨_, rfl, fun k hk => read_writePixel_other_pixel r (scaleTriplet_length _ _) hp hk⟩

/-- Settles O43: states that hold the same differ in what `State.observed` replaces. -/
theorem observationIsNeverRead : Obligations.ObservationIsNeverRead := by
  intro i s s' t hcore h
  obtain ⟨resp, events, hobs⟩ := exec_answersAlike h
  have ht : t = t.observed s.inputs (s.responses ++ [resp]) (s.trace ++ events) := by
    simpa using h.symm.trans (hobs s.inputs s.responses s.trace)
  refine ⟨t.observed s'.inputs (s'.responses ++ [resp]) (s'.trace ++ events), [resp], events, ?_, ⟨rfl, rfl, rfl, rfl⟩,
    congrArg State.responses ht, rfl, congrArg State.trace ht, rfl⟩
  have hs' : s' = s.observed s'.inputs s'.responses s'.trace := eq_update_of_sameCore hcore
  rw [hs']
  exact hobs _ _ _

/-- Settles O46: a stuck command answers the fault, and a command that is not stuck a next state. -/
theorem stuckExactlyWhenTransmitNeverCompletes : Obligations.StuckExactlyWhenTransmitNeverCompletes := by
  intro i s f
  refine ⟨fun h => ?_, fun h => exec_of_stuck h⟩
  by_contra hnot
  obtain ⟨t, ht⟩ := exec_of_not_stuck hnot
  cases ht.symm.trans h

/-- Settles O45: a stuck command has a transmitter that never completes and a transmit to make, and its answer is the
fault, not a refusal. -/
theorem everyCommandIsAnswered : Obligations.EveryCommandIsAnswered := by
  refine ⟨fun i s htx => exec_of_not_stuck fun h => ?_, fun i s f h => ?_,
    fun i s hcount => exec_of_not_stuck fun h => transmitCount_ne_zero_of_stuck h hcount⟩
  · cases htx.symm.trans h.1
  · by_cases hstuck : stuck i s
    · cases (exec_of_stuck hstuck).symm.trans h
    · obtain ⟨t, ht⟩ := exec_of_not_stuck hstuck
      cases ht.symm.trans h

/-- Settles O47: a word takes its input and is answered once; a command never takes events back, and a reserved word
makes none. -/
theorem observationOnlyGrows : Obligations.ObservationOnlyGrows := by
  intro s t w rest hin h
  obtain ⟨i, -, hi⟩ | ⟨op, -, rfl⟩ := step_word_next hin h
  · obtain ⟨resp, hresp, -⟩ := exec_one_response hi
    obtain ⟨-, hinputs, -⟩ := exec_keeps_surroundings hi
    rw [hresp]
    exact ⟨hinputs, List.prefix_append _ _, List.length_append, exec_trace_prefix (s := s.setInputs rest) hi⟩
  · exact ⟨rfl, List.prefix_append _ _, List.length_append, List.prefix_rfl⟩

end Sys2Proof.Machine
end

section
/-! Proof of R138: the divider-free structure of the scaler is the quotient by 255. -/

namespace Sys2Proof.Machine

theorem mul_toNat_le (c br : Byte) : c.toNat * br.toNat ≤ 65025 :=
  Nat.mul_le_mul (Nat.le_of_lt_succ c.isLt) (Nat.le_of_lt_succ br.isLt)

/-- Up to 65534 the quotient by 255 is a shift of `n + 1 + n / 256`. -/
theorem div_255_eq_shift {n : Nat} (h : n ≤ 65534) : n / 255 = (n + 1 + (n >>> 8)) >>> 8 := by
  rw [Nat.shiftRight_eq_div_pow, Nat.shiftRight_eq_div_pow]
  omega

/-- 17 bits hold the product and the sums, so the structure computes on exact integers. -/
theorem scale8ShiftAdd_toNat (c br : Byte) :
    (scale8ShiftAdd c br).toNat = (c.toNat * br.toNat + 1 + (c.toNat * br.toNat) >>> 8) >>> 8 := by
  have hn := mul_toNat_le c br
  have hprod : (c.setWidth 17 * br.setWidth 17 : BitVec 17).toNat = c.toNat * br.toNat := by
    rw [BitVec.toNat_mul, BitVec.toNat_setWidth_of_le (by decide), BitVec.toNat_setWidth_of_le (by decide)]
    omega
  simp only [scale8ShiftAdd, BitVec.toNat_setWidth, BitVec.toNat_ushiftRight, BitVec.toNat_add, hprod,
    Nat.shiftRight_eq_div_pow, BitVec.toNat_ofNat]
  omega

/-- Settles O21: a product of two bytes is at most 65025, where the shift is the quotient. -/
theorem shiftAddScalerAgrees : Obligations.ShiftAddScalerAgrees := by
  refine ⟨fun c br => BitVec.eq_of_toNat_eq ?_, fun n h => div_255_eq_shift h, by decide⟩
  have hn := mul_toNat_le c br
  rw [scale8ShiftAdd_toNat, scale8_toNat, div_255_eq_shift (by omega)]

end Sys2Proof.Machine
end

section
/-! Proofs about transmits: the events every command makes (R31, R33, R158, R220), and that `SHOW_COLOR` is `SET_PIXEL`
on every pixel and then `SHOW` (R157). -/

namespace Sys2Proof.Machine

/-! ### Events that are transmits of one strip -/

/-- Transmits of strips with the pin and the pixel count of `r`, whatever their bytes. -/
def transmitsOf (r : ReadyStrip) (events : List Event) : Prop :=
  ∀ e ∈ events, ∃ r', e = transmitEvent r' ∧ r'.pin = r.pin ∧ r'.pixelCount = r.pixelCount

theorem transmitsOf_self (r : ReadyStrip) : transmitsOf r [transmitEvent r] := by
  simpa [transmitsOf] using ⟨r, rfl, rfl, rfl⟩

theorem transmitsOf_writePixel (i : Nat) (t : List Byte) (r : ReadyStrip) :
    transmitsOf r [transmitEvent (writePixel i t r)] := by
  simpa [transmitsOf] using ⟨writePixel i t r, rfl, rfl, rfl⟩

theorem transmitsOf_fillEvents (t : List Byte) (k i : Nat) (r : ReadyStrip) : transmitsOf r (fillEvents t k i r) := by
  intro e he
  obtain ⟨j, -, rfl⟩ := mem_fillEvents he
  exact ⟨_, rfl, fillPixels_pin t j i r, fillPixels_pixelCount t j i r⟩

section transmitsOf
variable {r : ReadyStrip} {events : List Event} (h : transmitsOf r events)
include h

theorem transmit_of_transmitsOf {bytes : List Byte} {pin : Word} (he : Event.transmit bytes pin ∈ events) :
    pin = r.pin ∧ bytes.length = 3 * r.pixelCount.toNat := by
  obtain ⟨r', heq, hpin, hcount⟩ := h _ he
  cases heq
  exact ⟨hpin, hcount ▸ wholeBuffer_length r'⟩

theorem pinWrite_not_mem_of_transmitsOf (pin : Word) (level : Level) : Event.pinWrite pin level ∉ events := by
  intro he
  obtain ⟨r', heq, -⟩ := h _ he
  cases heq

theorem filter_isTransmit_of_transmitsOf : events.filter Event.isTransmit = events := by
  rw [List.filter_eq_self]
  intro e he
  obtain ⟨r', rfl, -⟩ := h e he
  rfl

end transmitsOf

/-- R158 in terms of the strip left: the `k`-th transmit has its bytes below `3 * (k + 1)`, and those found above. -/
theorem fillEvents_eq_left_or_found {t : List Byte} (ht : t.length = 3) {r : ReadyStrip} (hbuf : Memory.wf r.buf) :
    fillEvents t r.pixelCount.toNat 0 r =
      ((List.range r.pixelCount.toNat).map fun k =>
        .transmit ((List.range (3 * r.pixelCount.toNat)).map fun a =>
          if a < 3 * (k + 1) then Memory.read (fillPixels t r.pixelCount.toNat 0 r).buf a
          else Memory.read r.buf a) r.pin) ++
      [.transmit (wholeBuffer (fillPixels t r.pixelCount.toNat 0 r)) r.pin] := by
  rw [fillEvents_eq_map]
  refine congrArg₂ _ (List.map_congr_left fun k hk => ?_) (by rw [transmitEvent, fillPixels_pin])
  have hlt := List.mem_range.1 hk
  rw [transmitEvent_fillPixels ht hbuf]
  refine congrArg (Event.transmit · r.pin) (List.map_congr_left fun a _ => ?_)
  split
  · rw [read_fillPixels_zero ht hbuf, if_pos (by omega)]
  · rfl

/-! ### `SHOW_COLOR` as a list of commands (R157) -/

theorem toInt_ofNat_word {k : Nat} (h : k ≤ 2 ^ 31 - 1) : (BitVec.ofNat 32 k).toInt = k := by
  rw [BitVec.toInt_ofNat', Int.bmod_def]
  omega

theorem indexOperand_ofNat {k : Nat} (h : k ≤ 2 ^ 31 - 1) : indexOperand (BitVec.ofNat 32 k) = k := by
  rw [indexOperand, toInt_ofNat_word h, Int.toNat_natCast]

/-- `SET_PIXEL` with the same colour on each of the first `n` pixels, in ascending order. -/
def setPixels (color : Word) (n : Nat) : List Instr :=
  (List.range n).map fun k => .setPixel (BitVec.ofNat 32 k) color

theorem setPixels_succ (color : Word) (n : Nat) :
    setPixels color (n + 1) = setPixels color n ++ [.setPixel (BitVec.ofNat 32 n) color] := by
  simp [setPixels, List.range_succ]

/-- What `n` such commands leave of `s`, whose strip is `r`: `n` pixels filled, one transmit and one `OK` for each. -/
def afterSetPixels (t : List Byte) (r : ReadyStrip) (s : State) (n : Nat) : State :=
  { s with
    strip := .ready (fillPixels t n 0 r)
    trace := s.trace ++ (List.range n).map fun k => transmitEvent (fillPixels t (k + 1) 0 r)
    responses := s.responses ++ List.replicate n ⟨.ok, none⟩ }

theorem afterSetPixels_zero (t : List Byte) {r : ReadyStrip} {s : State} (hs : s.strip = .ready r) :
    afterSetPixels t r s 0 = s := by
  simp [afterSetPixels, fillPixels, ← hs]

theorem afterSetPixels_succ (t : List Byte) (r : ReadyStrip) (s : State) (n : Nat) :
    afterSetPixels t r s (n + 1) =
      (storeAndTransmit n t (fillPixels t n 0 r) (afterSetPixels t r s n)).respond none := by
  simp [afterSetPixels, storeAndTransmit, State.setStrip, State.emit, State.respond_eq, fillPixels_succ,
    List.range_succ, List.replicate_succ']

theorem runCommands_singleton {i : Instr} {s t : State} (h : exec i s = .next t) : runCommands [i] s = .next t := by
  simp [runCommands, h]

theorem runCommands_setPixels (color : Word) {s : State} {r : ReadyStrip} (hs : s.strip = .ready r)
    (htx : s.transmitter = .completes) {n : Nat} (hn : n ≤ r.pixelCount.toNat) (hlimit : n ≤ 2 ^ 31 - 1) :
    runCommands (setPixels color n) s = .next (afterSetPixels (scaleTriplet color s.brightness) r s n) := by
  induction n with
  | zero => rw [afterSetPixels_zero _ hs]; rfl
  | succ n ih =>
    have hindex : indexInRange (BitVec.ofNat 32 n) r.pixelCount = true := by
      rw [indexInRange_iff, toInt_ofNat_word (by omega)]
      omega
    rw [setPixels_succ, runCommands_append (ih (by omega) (by omega)), afterSetPixels_succ]
    have hset := exec_setPixel_inRange (s := afterSetPixels (scaleTriplet color s.brightness) r s n) color rfl
      (by simpa using hindex) htx
    rw [indexOperand_ofNat (by omega)] at hset
    exact runCommands_singleton hset

/-! ### The statements -/

/-- Settles O42: every event but `INIT`'s pin write is a transmit of a strip with the pixel count and pin of the one
found; a fault, the codec and `SET_BRIGHTNESS` make none. -/
theorem transmitsPerCommand : Obligations.TransmitsPerCommand := by
  intro i s t h
  cases exec_effect h with
  | result | uninitialized | capacity | outOfRange =>
    exact ⟨[], by simp, by simp, fun _ => rfl, by simp, by simp, by simp⟩
  | brightness =>
    exact ⟨[], (List.append_nil _).symm, fun _ _ _ => rfl, fun _ => rfl, by simp, by simp,
      fun _ => ⟨nofun, fun _ => rfl, nofun, nofun⟩⟩
  | init pin length =>
    refine ⟨[.pinWrite pin .low], rfl, fun _ _ _ => rfl, fun hne => absurd rfl hne, by simp, fun pin' level he => ?_,
      fun _ => ⟨?_, nofun, nofun, nofun⟩⟩
    · obtain ⟨rfl, rfl⟩ : pin' = pin ∧ level = .low := by simpa using he
      exact ⟨rfl, length, rfl⟩
    · rintro _ _ ⟨⟩
      rfl
  | pixel index color r hs =>
    have hev := transmitsOf_writePixel (indexOperand index) (scaleTriplet color s.brightness) r
    refine ⟨_, rfl, fun _ _ _ => rfl, fun hne => absurd rfl hne,
      fun _ _ he => ⟨r, hs, transmit_of_transmitsOf hev he⟩,
      fun _ _ he => absurd he (pinWrite_not_mem_of_transmitsOf hev _ _), fun _ => ⟨nofun, nofun, ?_, nofun⟩⟩
    rintro - _ ⟨⟩
    rfl
  | fill color r hs =>
    have hev := transmitsOf_fillEvents (scaleTriplet color s.brightness) r.pixelCount.toNat 0 r
    refine ⟨_, rfl, ?_, fun hne => absurd rfl hne,
      fun _ _ he => ⟨r, hs, transmit_of_transmitsOf hev he⟩,
      fun _ _ he => absurd he (pinWrite_not_mem_of_transmitsOf hev _ _), fun _ => ⟨nofun, nofun, nofun, ?_⟩⟩
    · rintro - _ ⟨⟩
      rw [filter_isTransmit_of_transmitsOf hev]
      simp [transmitCount]
    · rintro - r₀ _ hr₀ hbuf ⟨⟩
      obtain rfl : r = r₀ := by simpa [hs] using hr₀
      exact fillEvents_eq_left_or_found (scaleTriplet_length _ _) hbuf
  | flush r hs =>
    have hev := transmitsOf_self r
    refine ⟨_, rfl, fun _ _ _ => rfl, fun hne => absurd rfl hne,
      fun _ _ he => ⟨r, hs, transmit_of_transmitsOf hev he⟩,
      fun _ _ he => absurd he (pinWrite_not_mem_of_transmitsOf hev _ _), fun _ => ⟨nofun, nofun, ?_, nofun⟩⟩
    intro _ r' hr'
    obtain rfl : r = r' := by simpa [hs] using hr'
    rfl

/-- Settles O30: the commands fill pixel after pixel as the loop does, and the `SHOW` is its last transmit. -/
theorem showColorIsRepeatedSetPixelThenShow : Obligations.ShowColorIsRepeatedSetPixelThenShow := by
  intro color s r hinv hs htx
  have hwf : Strip.wf s.params (.ready r) = true := hs ▸ hinv.strip
  obtain ⟨-, hlimit, -, -⟩ := (Strip.wf_ready_iff _ _).1 hwf
  have hpixels := runCommands_setPixels color hs htx (Nat.le_refl _) hlimit
  refine ⟨_, _, exec_showColor_ready color hs htx,
    (runCommands_append hpixels).trans (runCommands_singleton (exec_showStrip_ready rfl htx)), ?_, rfl, ?_⟩
  · simp [afterSetPixels, State.respond_eq, State.emit, fillEvents_eq_map]
  · simp [afterSetPixels, List.replicate_succ']

end Sys2Proof.Machine
end
